-- ==== Sys2Proof/Word.lean ====
section
/-! DEFINITION. Word.lean: the word types of XMCODEC. -/

namespace Sys2Proof

/-- A register of the window, a command word, a buffer address: 32 bits (00_scope.md R5, 10_state.md R23). -/
abbrev Word := BitVec 32

/-- The smallest addressable unit of buffer memory (10_state.md R38). -/
abbrev Byte := BitVec 8

/-- A 16-bit element of buffer memory: a PCM sample, a delta, a coordinate, a table entry (30_encoding.md R75 to R79). -/
abbrev Half := BitVec 16

end Sys2Proof
end

