-- ==== Sys2Proof/Syntax.lean ====
section
/-! DEFINITION. Syntax.lean: the seven commands of XMCODEC, one constructor per row of spec/opcode_table.json. -/

namespace Sys2Proof

/-- A command (30_encoding.md R71). A command word has no operand fields: every operand is a fixed register (R73), so no
constructor has an argument. -/
inductive Instr where
  /-- CELL.UNPACK (40_pattern_cell.md R103). -/
  | cellUnpack
  /-- CELL.PACK (40_pattern_cell.md R107). -/
  | cellPack
  /-- DPCM.ENC8 (41_dpcm.md R145). -/
  | dpcmEnc8
  /-- DPCM.ENC16 (41_dpcm.md R146). -/
  | dpcmEnc16
  /-- DPCM.DEC8 (41_dpcm.md R147). -/
  | dpcmDec8
  /-- DPCM.DEC16 (41_dpcm.md R148). -/
  | dpcmDec16
  /-- ENV.EXPAND (42_envelope.md R185). -/
  | envExpand
deriving DecidableEq, Repr

end Sys2Proof
end

