-- ==== Sys2Proof/WellFormed.lean ====
section
/-! DEFINITION. WellFormed.lean: which command words are legal (30_encoding.md R70, R72). An instruction has no operand, so
every `Instr` is well-formed (LOG 16); the checks are on the word the Host writes. -/

namespace Sys2Proof

/-- Every command is well-formed: it has no operand that a check could refuse (R73). -/
def Instr.wellFormed : Instr → Bool
  | .cellUnpack => true
  | .cellPack => true
  | .dpcmEnc8 => true
  | .dpcmEnc16 => true
  | .dpcmDec8 => true
  | .dpcmDec16 => true
  | .envExpand => true

namespace CommandWord

/-- The field OP, bits 3:0 (R70). -/
def op (w : Word) : BitVec 4 := w.extractLsb' 0 4

/-- The field RSVD, bits 31:4 (R70). -/
def rsvd (w : Word) : BitVec 28 := w.extractLsb' 4 28

/-- RSVD must be zero (R70). -/
def rsvdZero (w : Word) : Bool := rsvd w == 0

/-- OP is one of the seven codes of R71. -/
def opAssigned (w : Word) : Bool := decide (1 ≤ (op w).toNat ∧ (op w).toNat ≤ 7)

/-- "A command word is legal exactly when RSVD = 0 and OP is one of the seven codes" (R70). -/
def legal (w : Word) : Bool := rsvdZero w && opAssigned w

end CommandWord

end Sys2Proof
end

