-- ==== Sys2Proof/Decode.lean ====
section
/-! DEFINITION. Decode.lean: the decoder of command words, total, rejecting by name (30_encoding.md R70 to R74), and the
encoder, from the same opcode map R71. -/

namespace Sys2Proof

/-- Why a word, or a list of bytes, is no command. -/
inductive Illegal where
  /-- RSVD, bits 31:4, is not zero (R70, R72). -/
  | reservedBits
  /-- RSVD = 0 and OP is 0x0 or 0x8 to 0xF (R72). -/
  | reservedOp
  /-- Not four bytes: a command word is always 32 bits (R70, R74). -/
  | length
deriving DecidableEq, Repr

/-- The opcode map of R71, from the operation code. -/
def decodeOp (op : BitVec 4) : Except Illegal Instr :=
  match op.toNat with
  | 1 => .ok .cellUnpack
  | 2 => .ok .cellPack
  | 3 => .ok .dpcmEnc8
  | 4 => .ok .dpcmEnc16
  | 5 => .ok .dpcmDec8
  | 6 => .ok .dpcmDec16
  | 7 => .ok .envExpand
  | _ => .error .reservedOp

/-- Decoding uses the full 32 bits (R74): RSVD first, then the operation code. -/
def decode (w : Word) : Except Illegal Instr :=
  if CommandWord.rsvdZero w then decodeOp (CommandWord.op w) else .error .reservedBits

/-- The decoder on bytes in the order the bus carries them: the least significant first (20_memory.md R51). -/
def decodeBytes : List Byte → Except Illegal Instr
  | [b0, b1, b2, b3] => decode (b3 ++ b2 ++ b1 ++ b0)
  | _ => .error .length

/-- The command word of an instruction: the column "CMD word" of R71. -/
def encode : Instr → Word
  | .cellUnpack => 0x00000001
  | .cellPack => 0x00000002
  | .dpcmEnc8 => 0x00000003
  | .dpcmEnc16 => 0x00000004
  | .dpcmDec8 => 0x00000005
  | .dpcmDec16 => 0x00000006
  | .envExpand => 0x00000007

/-- The same word as the four bytes of a bus write, least significant first (R51). -/
def encodeBytes (i : Instr) : List Byte :=
  [(encode i).extractLsb' 0 8, (encode i).extractLsb' 8 8, (encode i).extractLsb' 16 8, (encode i).extractLsb' 24 8]

/-- The bits of an instruction, numbered as spec/opcode_table.json numbers them, as a command word: bits from `nbits` up are 0. -/
def tableWord (nbits w : Nat) : Word := BitVec.ofNat 32 (w % 2 ^ nbits)

/-- The instruction the decoder reads from those bits, laid out as bytes, the first at the lowest place. -/
def decodeTableWord (nbits w : Nat) : Option Instr :=
  let v := tableWord nbits w
  match decodeBytes [v.extractLsb' 0 8, v.extractLsb' 8 8, v.extractLsb' 16 8, v.extractLsb' 24 8] with
  | .ok i => some i
  | .error _ => none

end Sys2Proof
end

