-- ==== Sys2Proof/Config.lean ====
section
/-! DEFINITION. Config.lean: what the platform fixes (00_scope.md R5) and the free values of the model. None has a body,
so nothing can be proved about which value it is. -/

namespace Sys2Proof

/-- MEM_SIZE, the size of buffer memory in bytes, 0 ≤ MEM_SIZE ≤ 2^32 (R5, 92_eei_decisions.md D4, OPEN). It is the value
the reset state carries in its field `memSize` (LOG 4). -/
opaque Config.memSize : Fin 0x100000001

/-- REG_BASE, the host address of the register window (R5, D2, OPEN). Nothing in the unit depends on it (LOG 5). -/
opaque Config.regBase : Nat

/-- The host address of an offset of the register window (20_memory.md R50). -/
def Config.windowAddress (offset : BitVec 8) : Nat := Config.regBase + offset.toNat

/-- FREE VALUE. What a byte of buffer memory holds after power-up, per address (70_reset_and_hazards.md R240: a draw; LOG 6). -/
opaque Config.powerUpByte : Nat → Byte

/-- FREE VALUE. The k-th draw of the run: a byte the spec leaves UNSPECIFIED (R241, R245; LOG 7). -/
opaque Config.freeByte : Nat → Byte

end Sys2Proof
end

