-- ==== Sys2Proof/Machine/Bits.lean ====
section
/-! DEFINITION. Machine/Bits.lean: the width, division and byte-order primitives of 00_scope.md R8, R9 and 20_memory.md R51. -/

namespace Sys2Proof.Machine

/-- `MIN_N = -2^(N-1)` (R8). -/
def minInt (n : Nat) : Int := -((2 ^ (n - 1) : Nat) : Int)

/-- `MAX_N = 2^(N-1) - 1` (R8). -/
def maxInt (n : Nat) : Int := ((2 ^ (n - 1) : Nat) : Int) - 1

/-- `bits_N(v)`: the N-bit pattern of an integer (R8). -/
def bitsOf (n : Nat) (v : Int) : BitVec n := BitVec.ofInt n v

/-- `zext_N`: a bit pattern as an unsigned integer (R8). -/
def zext {n : Nat} (b : BitVec n) : Nat := b.toNat

/-- `sext_N`: a bit pattern as a two's-complement integer (R8). -/
def sext {n : Nat} (b : BitVec n) : Int := b.toInt

/-- `wrap_N(v) = sext_N(v)`: the two's-complement wrap of an exact integer (R8). -/
def wrapInt (n : Nat) (v : Int) : Int := sext (bitsOf n v)

/-- `clamp(v, lo, hi)` (R8). -/
def clampInt (v lo hi : Int) : Int := if v < lo then lo else if hi < v then hi else v

/-- `sat32(v)`: a count saturated to a 32-bit register (R8). -/
def sat32 (v : Nat) : Nat := min v 0xFFFFFFFF

/-- `tdiv(a, b)`: the quotient rounded toward zero (R9). -/
def tdiv (a b : Int) : Int := Int.tdiv a b

/-- `asr(a, k) = floor(a / 2^k)` (R9). -/
def asr (a : Int) (k : Nat) : Int := Int.fdiv a ((2 ^ k : Nat) : Int)

/-- `a << k = a · 2^k`, exact (R9). -/
def shlInt (a : Int) (k : Nat) : Int := a * ((2 ^ k : Nat) : Int)

/-- The two bytes of a 16-bit element, least significant first (R51, R52). -/
def halfBytes (h : Half) : List Byte := [h.extractLsb' 0 8, h.extractLsb' 8 8]

/-- The 16-bit element of two bytes: `mem[a] + 256·mem[a+1]` (R10, R52). -/
def halfOf (lo hi : Byte) : Half := hi ++ lo

/-- The four bytes of a register word on the bus, least significant first (R51). -/
def wordBytes (w : Word) : List Byte :=
  [w.extractLsb' 0 8, w.extractLsb' 8 8, w.extractLsb' 16 8, w.extractLsb' 24 8]

/-- The register word of four bus bytes (R51); no word for another number of bytes. -/
def wordOf? : List Byte → Option Word
  | [b0, b1, b2, b3] => some (b3 ++ b2 ++ b1 ++ b0)
  | _ => none

end Sys2Proof.Machine
end

