-- ==== Sys2Proof/Machine/State.lean ====
section
/-! DEFINITION. Machine/State.lean: the state of XMCODEC (10_state.md R20 to R42) as plain data, the reasons a step can stop,
and the state right after reset. -/

namespace Sys2Proof.Machine

/-- The Unit's phase (10_state.md R20). -/
inductive Phase where
  | idle
  | busy
deriving DecidableEq, Repr

/-- The completion codes (60_exceptions.md R211); 0x9 to 0xF are never produced, so they have no constructor. -/
inductive Code where
  | ok
  | badOp
  | addrRange
  | overlap
  | truncated
  | corrupt
  | envCount
  | envOrder
  | dstOverflow
deriving DecidableEq, Repr

/-- The ten registers of the window (10_state.md R23). -/
inductive Reg where
  | cmd
  | status
  | srcAddr
  | srcLen
  | dstAddr
  | dstCap
  | arg0
  | arg1
  | res0
  | res1
deriving DecidableEq, Repr

/-- One access of the Host (00_scope.md R6). Bytes travel in address order, the least significant first (20_memory.md R51). -/
inductive HostAction where
  /-- A write of `data` to the register window at `offset`; its width is the number of bytes (10_state.md R35). -/
  | regWrite (offset : BitVec 8) (data : List Byte)
  /-- A read of `width` bytes of the register window at `offset`. -/
  | regRead (offset : BitVec 8) (width : Nat)
  /-- A write of `data` to buffer memory from `addr` up (20_memory.md R50). -/
  | memWrite (addr : Word) (data : List Byte)
  /-- A read of `count` bytes of buffer memory from `addr` up. -/
  | memRead (addr : Word) (count : Nat)
deriving DecidableEq, Repr

/-- One pending input: what happens next (70_reset_and_hazards.md R243; LOG 1). -/
inductive Event where
  /-- The Host makes an access. -/
  | host (action : HostAction)
  /-- It is the Unit's turn. -/
  | unit
  /-- The Host polls STATUS until BUSY = 0 (30_encoding.md R85). -/
  | wait
  /-- Reset (70_reset_and_hazards.md R240, R241). -/
  | reset
deriving DecidableEq, Repr

/-- Buffer memory: the bytes written since power-up, as (address, byte) pairs with the addresses strictly rising. An address
not listed holds no recorded byte and reads as the free value `Config.powerUpByte` of its address (R240; LOG 6). -/
abbrev Memory := List Host.Cell

/-- Everything the spec gives the machine (10_state.md R20). -/
structure State where
  /-- R20: IDLE or BUSY, seen as STATUS.BUSY. -/
  phase : Phase
  /-- CMD, offset 0x00 (R24). -/
  cmd : Word
  /-- STATUS.DONE, bit 1 (R25). -/
  done : Bool
  /-- STATUS.OVERRUN, bit 2 (R25, R37). -/
  overrun : Bool
  /-- STATUS.CODE, bits 11:8 (R25). -/
  code : Code
  /-- SRC_ADDR, offset 0x08 (R26). -/
  srcAddr : Word
  /-- SRC_LEN, offset 0x0C (R27). -/
  srcLen : Word
  /-- DST_ADDR, offset 0x10 (R28). -/
  dstAddr : Word
  /-- DST_CAP, offset 0x14 (R29). -/
  dstCap : Word
  /-- ARG0, offset 0x18 (R30). -/
  arg0 : Word
  /-- ARG1, offset 0x1C (R31). -/
  arg1 : Word
  /-- RES0, offset 0x20 (R32). -/
  res0 : Word
  /-- RES1, offset 0x24 (R33). -/
  res1 : Word
  /-- Buffer memory (R38). -/
  mem : Memory
  /-- The parameter MEM_SIZE (00_scope.md R5), the same in every state of a run (LOG 4). -/
  memSize : Fin 0x100000001
  /-- The model's own: the pending inputs, oldest first (LOG 1). -/
  agenda : List Event
  /-- The model's own: the bytes that the last Host read returned (LOG 11). -/
  hostData : List Byte
  /-- The model's own: how many free values have been drawn (LOG 7). -/
  draws : Nat
deriving DecidableEq, Repr

/-- Why a run is marked faulted. -/
inductive Fault where
  /-- The Host wrote a byte of the source or destination extent of a running command (70_reset_and_hazards.md R244:
  "A model records a fault for the run at that write and does not let it succeed"). Raised by `hostAccess`. Safe. -/
  | hostWroteRunningExtent
deriving DecidableEq, Repr

/-- Why a step has no meaning. -/
inductive Refusal where
  /-- An instruction whose meaning is not written yet. Raised by `exec` alone; no arm raises it now. Safe. -/
  | notModelled (mnemonic : String)
  /-- A register access that is not 32 bits wide or not at a multiple of 4 (10_state.md R35: UNSPECIFIED, "A model refuses
  such an access"). Raised by `hostAccess`. Safe. -/
  | windowAccess
  /-- A Host access to buffer memory at or above MEM_SIZE (60_exceptions.md R233, a platform matter;
  93_implementation_defined.md row 11: refuse). Raised by `hostAccess`. Safe. -/
  | bufferAddress
deriving DecidableEq, Repr

/-- The machine right after power-up and reset (10_state.md R42, 70_reset_and_hazards.md R240): phase IDLE, every register of
R23 at 0x00000000, nothing known of buffer memory. The model's own fields are empty (LOG 2, LOG 7, LOG 11). -/
def State.reset : State where
  phase := .idle
  cmd := 0x00000000
  done := false
  overrun := false
  code := .ok
  srcAddr := 0x00000000
  srcLen := 0x00000000
  dstAddr := 0x00000000
  dstCap := 0x00000000
  arg0 := 0x00000000
  arg1 := 0x00000000
  res0 := 0x00000000
  res1 := 0x00000000
  mem := []
  memSize := Config.memSize
  agenda := []
  hostData := []
  draws := 0

end Sys2Proof.Machine
end

