-- ==== Sys2Proof/Machine/Flags.lean ====
section
/-! DEFINITION. Machine/Flags.lean: the flags of XMCODEC, which are STATUS.BUSY, DONE, OVERRUN and CODE (10_state.md R25, R36). -/

namespace Sys2Proof.Machine

/-- The value of a completion code in STATUS bits 11:8 (60_exceptions.md R211). -/
def Code.bits : Code → BitVec 4
  | .ok => 0x0
  | .badOp => 0x1
  | .addrRange => 0x2
  | .overlap => 0x3
  | .truncated => 0x4
  | .corrupt => 0x5
  | .envCount => 0x6
  | .envOrder => 0x7
  | .dstOverflow => 0x8

/-- STATUS.BUSY is 1 exactly when phase = BUSY (R20). -/
def State.busy (s : State) : Bool :=
  match s.phase with
  | .idle => false
  | .busy => true

/-- What a read of STATUS returns (R25): CODE in 11:8, OVERRUN in 2, DONE in 1, BUSY in 0, the reserved bits 0. -/
def State.statusWord (s : State) : Word :=
  (0 : BitVec 20) ++ s.code.bits ++ (0 : BitVec 5) ++ BitVec.ofBool s.overrun ++ BitVec.ofBool s.done ++ BitVec.ofBool s.busy

/-- A write of `v` to STATUS (R25): a 1 in bit 1 clears DONE, a 1 in bit 2 clears OVERRUN, in either phase; nothing else
changes (LOG 13). -/
def State.clearFlags (s : State) (v : Word) : State :=
  { s with done := s.done && !v.getLsbD 1, overrun := s.overrun && !v.getLsbD 2 }

/-- A configuration write that is ignored because BUSY = 1 sets OVERRUN (R37). -/
def State.markOverrun (s : State) : State := { s with overrun := true }

end Sys2Proof.Machine
end

