-- ==== Sys2Proof/Machine/Ops.lean ====
section
/-! DEFINITION. Machine/Ops.lean: the named operations over buffer memory, extents and registers, and the completion of a
command (`finish`, 00_scope.md R11), which is XMCODEC's counterpart of taking an exception (60_exceptions.md R223). -/

namespace Sys2Proof.Machine

/-! Buffer memory. -/

/-- The canonical form: addresses strictly rising. Every listed address holds a byte that was written; an address that is not
listed holds none (LOG 6). -/
def Memory.wf : Memory → Bool
  | [] => true
  | [_] => true
  | (a, _) :: (b, w) :: rest => decide (a < b) && Memory.wf ((b, w) :: rest)

/-- The byte recorded at an address, if one was written since power-up. -/
def Memory.get? : Memory → Nat → Option Byte
  | [], _ => none
  | (k, v) :: rest, a => if k = a then some v else Memory.get? rest a

/-- The byte at buffer address `a`, `MemRead(a, 1)` (R10). A byte nothing has written reads as its power-up draw (R240). -/
def Memory.read (m : Memory) (a : Nat) : Byte :=
  match m.get? a with
  | some v => v
  | none => Config.powerUpByte a

/-- `MemWrite(a, 1, v)` (R10), keeping the addresses rising. -/
def Memory.write : Memory → Nat → Byte → Memory
  | [], a, v => [(a, v)]
  | (k, w) :: rest, a, v =>
    if a < k then (a, v) :: (k, w) :: rest
    else if a = k then (a, v) :: rest
    else (k, w) :: Memory.write rest a v

/-- `MemRead(a, 2)`: little-endian (R10, R51), at any address (R53). -/
def Memory.read16 (m : Memory) (a : Nat) : Half := halfOf (m.read a) (m.read (a + 1))

/-- The `n` bytes from `a` up. -/
def Memory.readBytes (m : Memory) (a n : Nat) : List Byte := (List.range n).map fun i => m.read (a + i)

/-- Stores bytes from `a` up, in order. -/
def Memory.writeBytes : Memory → Nat → List Byte → Memory
  | m, _, [] => m
  | m, a, b :: bs => Memory.writeBytes (m.write a b) (a + 1) bs

/-! Extents. -/

/-- An extent: an address and a length in bytes, exact integers (00_scope.md R13, 20_memory.md R54). -/
structure Extent where
  addr : Nat
  len : Nat
deriving DecidableEq, Repr

/-- R54: in range exactly when the length is 0 or `a + len ≤ MEM_SIZE`, with no 32-bit wrap. -/
def Extent.inRange (size : Nat) (e : Extent) : Bool := e.len == 0 || decide (e.addr + e.len ≤ size)

/-- R55: two extents overlap exactly when both are non-empty and each begins before the other ends. -/
def Extent.overlaps (x y : Extent) : Bool :=
  decide (0 < x.len) && decide (0 < y.len) && decide (x.addr < y.addr + y.len) && decide (y.addr < x.addr + x.len)

/-- The address is one of the extent's bytes. -/
def Extent.has (e : Extent) (a : Nat) : Bool := decide (e.addr ≤ a) && decide (a < e.addr + e.len)

/-! Named updates of the state. -/

/-- Buffer memory replaced. -/
def State.withMem (s : State) (m : Memory) : State := { s with mem := m }

/-- The pending inputs replaced. -/
def State.withAgenda (s : State) (es : List Event) : State := { s with agenda := es }

/-- The bytes a Host read returned. -/
def State.deliver (s : State) (bs : List Byte) : State := { s with hostData := bs }

/-- `n` free values have been drawn. -/
def State.drawn (s : State) (n : Nat) : State := { s with draws := s.draws + n }

/-! Completion. -/

/-- `finish(code, res0, res1)` (00_scope.md R11): CODE, RES0 = zext_32(res0), RES1 = bits_32(res1), BUSY = 0 and DONE = 1, all
at once. It saves no state, changes no mode and goes nowhere (60_exceptions.md R223). -/
def finish (code : Code) (res0 : Nat) (res1 : Int) (s : State) : State :=
  { s with
    phase := .idle
    done := true
    code := code
    res0 := BitVec.ofNat 32 res0
    res1 := bitsOf 32 res1 }

/-- How a command ends: with its whole output, or with a code and nothing written (60_exceptions.md R221). -/
inductive Completion where
  /-- `finish(OK, res0, res1)` after the output is written from DST_ADDR up. -/
  | success (res0 : Nat) (res1 : Int) (output : List Byte)
  /-- `finish(code, res0, res1)` with no byte written. -/
  | failure (code : Code) (res0 : Nat) (res1 : Int)
deriving DecidableEq, Repr

/-- The completion step's effect on the state (R221, R223): all of the output, or none. -/
def complete (s : State) : Completion → State
  | .success res0 res1 output => finish .ok res0 res1 (s.withMem (s.mem.writeBytes s.dstAddr.toNat output))
  | .failure code res0 res1 => finish code res0 res1 s

/-- BAD_OP (60_exceptions.md R213): no buffer access, no other register read. -/
def completeBadOp (s : State) : State := complete s (.failure .badOp 0 0)

/-- The return beside it: there is none (60_exceptions.md R224). The Host acknowledges a completion by a 1 written to
STATUS.DONE, which this is, or by the next command's start. -/
def acknowledge (s : State) : State := s.clearFlags 0x00000002

end Sys2Proof.Machine
end

