-- ==== Sys2Proof/Machine/Operands.lean ====
section
/-! DEFINITION. Machine/Operands.lean: every operand form of the commands: the fixed operand registers (30_encoding.md R73),
the extents (60_exceptions.md R212), the in-memory element formats (R75 to R79), and the checks S3 to S5 and S7 of R212 that all
commands share. -/

namespace Sys2Proof.Machine

/-! The operand registers, 32-bit unsigned, as exact integers (R73). -/

/-- `S = reg[SRC_ADDR]`. -/
def State.srcBase (s : State) : Nat := zext s.srcAddr

/-- `L = reg[SRC_LEN]`, the declared packed length. -/
def State.declaredLen (s : State) : Nat := zext s.srcLen

/-- `D = reg[DST_ADDR]`. -/
def State.dstBase (s : State) : Nat := zext s.dstAddr

/-- `CAP = reg[DST_CAP]`. -/
def State.capacity (s : State) : Nat := zext s.dstCap

/-- `n`, `R` or `count`, by command: reg[ARG0]. -/
def State.count (s : State) : Nat := zext s.arg0

/-- `R·C`, the number of cells of the matrix, exact (R212). -/
def State.cellCount (s : State) : Nat := zext s.arg0 * zext s.arg1

/-- The destination extent `(DST_ADDR, DST_CAP)` of every command (10_state.md R29). -/
def State.dstExtent (s : State) : Extent := ⟨s.dstBase, s.capacity⟩

/-- The source extent of a command: the column src_extent of the table of R212. -/
def srcExtent (i : Instr) (s : State) : Extent :=
  match i with
  | .cellUnpack => ⟨s.srcBase, s.declaredLen⟩
  | .cellPack => ⟨s.srcBase, 6 * s.cellCount⟩
  | .dpcmEnc8 => ⟨s.srcBase, 2 * s.count⟩
  | .dpcmEnc16 => ⟨s.srcBase, 2 * s.count⟩
  | .dpcmDec8 => ⟨s.srcBase, s.count⟩
  | .dpcmDec16 => ⟨s.srcBase, 2 * s.count⟩
  | .envExpand => ⟨s.srcBase, 4 * s.count⟩

/-! Sequences of elements in buffer memory. -/

/-- `n` PCM16 samples, or DPCM16 elements, from `base`: sext_16 of the two bytes at `base + 2i` (R75, R76). -/
def signed16s (m : Memory) (base n : Nat) : List Int := (List.range n).map fun i => sext (m.read16 (base + 2 * i))

/-- `n` DPCM8 elements from `base`: sext_8 of the byte at `base + i` (R76). -/
def signed8s (m : Memory) (base n : Nat) : List Int := (List.range n).map fun i => sext (m.read (base + i))

/-- The bytes of 16-bit elements, little-endian: bits_16 of each value (R75, R76, R79). -/
def bytesOf16s (vs : List Int) : List Byte := vs.flatMap fun v => halfBytes (bitsOf 16 v)

/-- The bytes of 8-bit elements: bits_8 of each value (R76). -/
def bytesOf8s (vs : List Int) : List Byte := vs.map (bitsOf 8)

/-! The shared checks of R212. -/

/-- S3, S4 and S5 of R212, in that order: the code of the first that fails. -/
def extentFailure? (s : State) (src : Extent) : Option Code :=
  if !src.inRange s.memSize.val then some .addrRange
  else if !s.dstExtent.inRange s.memSize.val then some .addrRange
  else if src.overlaps s.dstExtent then some .overlap
  else none

/-- S7 of R212 when it fails: an output of `size` bytes is larger than DST_CAP (60_exceptions.md R220). -/
def overflow (size : Nat) : Completion := .failure .dstOverflow (sat32 size) 0

end Sys2Proof.Machine
end

