-- ==== Sys2Proof/Machine/Cell.lean ====
section
/-! DEFINITION. Machine/Cell.lean: the pattern cell codec, CELL.UNPACK and CELL.PACK (40_pattern_cell.md). -/

namespace Sys2Proof.Machine

/-- A Cell value: six unsigned bytes (R100). -/
structure Cell where
  mask : Byte
  note : Byte
  instrument : Byte
  volume : Byte
  fxtype : Byte
  fxparam : Byte
deriving DecidableEq, Repr

/-- The 6-byte cell record (30_encoding.md R77). -/
def Cell.bytes (c : Cell) : List Byte := [c.mask, c.note, c.instrument, c.volume, c.fxtype, c.fxparam]

/-- The cell record at buffer address `a` (R77). -/
def cellAt (m : Memory) (a : Nat) : Cell where
  mask := m.read a
  note := m.read (a + 1)
  instrument := m.read (a + 2)
  volume := m.read (a + 3)
  fxtype := m.read (a + 4)
  fxparam := m.read (a + 5)

/-- `n` cell records from `base`, in stream order: cell (r, c) is number `r·channels + c` (R77, R84). -/
def cellsAt (m : Memory) (base n : Nat) : List Cell := (List.range n).map fun i => cellAt m (base + 6 * i)

/-! Unpacking. A cursor `pos` of R101 is the rest of the stream: `pos ≥ L` is an empty rest. -/

/-- The next stream byte; none when the stream has run out (`pos >= L`, R101). -/
def takeByte : List Byte → Option (Byte × List Byte)
  | [] => none
  | b :: rest => some (b, rest)

/-- A field of a compressed cell: a byte is read exactly when its mask bit is set, and the field is 0 otherwise (R101). -/
def takeField (present : Bool) (stream : List Byte) : Option (Byte × List Byte) :=
  if present then takeByte stream else some (0, stream)

/-- The five fields in the fixed order note, instrument, volume, fxtype, fxparam; bit k of `present` says whether field k is
read (R101). -/
def takeFields (mask : Byte) (present : BitVec 5) (stream : List Byte) : Option (Cell × List Byte) :=
  match takeField (present.getLsbD 0) stream with
  | none => none
  | some (note, r0) =>
    match takeField (present.getLsbD 1) r0 with
    | none => none
    | some (instrument, r1) =>
      match takeField (present.getLsbD 2) r1 with
      | none => none
      | some (volume, r2) =>
        match takeField (present.getLsbD 3) r2 with
        | none => none
        | some (fxtype, r3) =>
          match takeField (present.getLsbD 4) r3 with
          | none => none
          | some (fxparam, r4) => some (⟨mask, note, instrument, volume, fxtype, fxparam⟩, r4)

/-- `unpack_cell` (R101): the cell and the rest of the stream, or none for TRUNC. In the legacy form the mask byte read is the
note value too, and the four other fields are always read. -/
def unpackCell (stream : List Byte) : Option (Cell × List Byte) :=
  match takeByte stream with
  | none => none
  | some (m, rest) =>
    if m.getLsbD 7 then takeFields m (m.extractLsb' 0 5) rest
    else
      match takeFields m 0b11110 rest with
      | none => none
      | some (c, rest') => some ({ c with note := m }, rest')

/-- What `unpack_stream` finds, before the comparison with L (R102). -/
inductive Unpacked where
  /-- The stream ran out after `cellsDone` whole cells. -/
  | truncated (cellsDone : Nat)
  /-- Every cell was decoded, with `rest` left over. -/
  | cells (out : List Cell) (rest : List Byte)
deriving DecidableEq, Repr

/-- One more cell in front of what the rest of the stream gave. -/
def Unpacked.cons (c : Cell) : Unpacked → Unpacked
  | .truncated k => .truncated (k + 1)
  | .cells out rest => .cells (c :: out) rest

/-- `unpack_stream` for `n` cells (R102). -/
def unpackStream : Nat → List Byte → Unpacked
  | 0, stream => .cells [] stream
  | n + 1, stream =>
    match unpackCell stream with
    | none => .truncated 0
    | some (c, rest) => (unpackStream n rest).cons c

/-- CELL.UNPACK after its checks S3 to S5 (R103): S6 gives TRUNCATED (60_exceptions.md R216) or CORRUPT (R217), S7 gives
DST_OVERFLOW, S8 writes the cell matrix. -/
def cellUnpackBody (s : State) : Completion :=
  match unpackStream s.cellCount (s.mem.readBytes s.srcBase s.declaredLen) with
  | .truncated k => .failure .truncated s.declaredLen k
  | .cells out rest =>
    if rest.length = 0 then
      if s.capacity < 6 * s.cellCount then overflow (6 * s.cellCount)
      else .success s.declaredLen s.cellCount (out.flatMap Cell.bytes)
    else .failure .corrupt (s.declaredLen - rest.length) s.cellCount

/-- How CELL.UNPACK completes (R103). -/
def cellUnpackResult (s : State) : Completion :=
  match extentFailure? s (srcExtent .cellUnpack s) with
  | some code => .failure code 0 0
  | none => cellUnpackBody s

/-- CELL.UNPACK (R103). -/
def execCellUnpack (s : State) : Host.Outcome State Fault Refusal := .next (complete s (cellUnpackResult s))

/-! Packing. -/

/-- The five fields in the packer's order (R104). -/
def Cell.fields (c : Cell) : List Byte := [c.note, c.instrument, c.volume, c.fxtype, c.fxparam]

/-- The mask that `pack_cell` derives: bit 7, and bit k when field k is not 0; the stored mask is never read (R104, R105). -/
def packMask (c : Cell) : Byte :=
  (1 : BitVec 1) ++ (0 : BitVec 2) ++ BitVec.ofBool (c.fxparam != 0) ++ BitVec.ofBool (c.fxtype != 0) ++
    BitVec.ofBool (c.volume != 0) ++ BitVec.ofBool (c.instrument != 0) ++ BitVec.ofBool (c.note != 0)

/-- Every field but the note is 0 (R104). -/
def Cell.legacy (c : Cell) : Bool := c.instrument == 0 && c.volume == 0 && c.fxtype == 0 && c.fxparam == 0

/-- `pack_cell` (R104): the 5-byte legacy form when the four non-note fields are 0, whatever the note (R110); else the mask
and the non-zero fields. -/
def packCell (c : Cell) : List Byte :=
  if c.legacy then [c.note, 0x00, 0x00, 0x00, 0x00] else packMask c :: c.fields.filter (fun f => f != 0)

/-- `pack_stream` (R106). -/
def packStream (cells : List Cell) : List Byte := cells.flatMap packCell

/-- CELL.PACK after its checks S3 to S5 (R107): every matrix packs, so only S7 can fail. -/
def cellPackBody (s : State) : Completion :=
  let out := packStream (cellsAt s.mem s.srcBase s.cellCount)
  if s.capacity < out.length then overflow out.length else .success out.length s.cellCount out

/-- How CELL.PACK completes (R107). -/
def cellPackResult (s : State) : Completion :=
  match extentFailure? s (srcExtent .cellPack s) with
  | some code => .failure code 0 0
  | none => cellPackBody s

/-- CELL.PACK (R107). -/
def execCellPack (s : State) : Host.Outcome State Fault Refusal := .next (complete s (cellPackResult s))

end Sys2Proof.Machine
end

