-- ==== Sys2Proof/Machine/Dpcm.lean ====
section
/-! DEFINITION. Machine/Dpcm.lean: the DPCM sample codec, DPCM.ENC8, DPCM.ENC16, DPCM.DEC8 and DPCM.DEC16 (41_dpcm.md). -/

namespace Sys2Proof.Machine

/-- What `dpcm_encode_N` returns: the deltas, the number of clamp events and the carry after the last step (R141). -/
structure Encoded where
  deltas : List Int
  errors : Nat
  carry : Int
deriving DecidableEq, Repr

/-- The steps i ≥ 1 of `dpcm_encode_N` (R141): `prev` is the original previous sample, `diff` is exact. -/
def encodeFrom (n : Nat) (prev carry : Int) (errors : Nat) : List Int → Encoded
  | [] => ⟨[], errors, carry⟩
  | p :: rest =>
    let diff := p - prev + carry
    if maxInt n < diff then
      let r := encodeFrom n p (diff - maxInt n) (errors + 1) rest
      { r with deltas := maxInt n :: r.deltas }
    else if diff < minInt n then
      let r := encodeFrom n p (diff - minInt n) (errors + 1) rest
      { r with deltas := minInt n :: r.deltas }
    else
      let r := encodeFrom n p 0 errors rest
      { r with deltas := diff :: r.deltas }

/-- `dpcm_encode_N` (R141). -/
def dpcmEncode (n : Nat) : List Int → Encoded
  | [] => ⟨[], 0, 0⟩
  | p :: rest =>
    let r := encodeFrom n p 0 0 rest
    { r with deltas := p :: r.deltas }

/-- The steps i ≥ 1 of `dpcm_decode_N`: the running sum, wrapped in N bits (R142). -/
def decodeFrom (n : Nat) (sum : Int) : List Int → List Int
  | [] => []
  | d :: rest => wrapInt n (sum + d) :: decodeFrom n (wrapInt n (sum + d)) rest

/-- `dpcm_decode_N` (R142). -/
def dpcmDecode (n : Nat) : List Int → List Int
  | [] => []
  | d :: rest => d :: decodeFrom n d rest

/-- `widen8(v) = v · 256` (R144). -/
def widen8 (v : Int) : Int := v * 256

/-- `narrow8(s) = asr(s, 8)` (R144). -/
def narrow8 (v : Int) : Int := asr v 8

/-- DPCM.ENC8 after its checks S3 to S5 (R145). -/
def dpcmEnc8Body (s : State) : Completion :=
  if s.capacity < s.count then overflow s.count else
    let r := dpcmEncode 8 ((signed16s s.mem s.srcBase s.count).map narrow8)
    .success r.errors r.carry (bytesOf8s r.deltas)

/-- How DPCM.ENC8 completes (R145). -/
def dpcmEnc8Result (s : State) : Completion :=
  match extentFailure? s (srcExtent .dpcmEnc8 s) with
  | some code => .failure code 0 0
  | none => dpcmEnc8Body s

/-- DPCM.ENC8 (R145). -/
def execDpcmEnc8 (s : State) : Host.Outcome State Fault Refusal := .next (complete s (dpcmEnc8Result s))

/-- DPCM.ENC16 after its checks S3 to S5 (R146). -/
def dpcmEnc16Body (s : State) : Completion :=
  if s.capacity < 2 * s.count then overflow (2 * s.count) else
    let r := dpcmEncode 16 (signed16s s.mem s.srcBase s.count)
    .success r.errors r.carry (bytesOf16s r.deltas)

/-- How DPCM.ENC16 completes (R146). -/
def dpcmEnc16Result (s : State) : Completion :=
  match extentFailure? s (srcExtent .dpcmEnc16 s) with
  | some code => .failure code 0 0
  | none => dpcmEnc16Body s

/-- DPCM.ENC16 (R146). -/
def execDpcmEnc16 (s : State) : Host.Outcome State Fault Refusal := .next (complete s (dpcmEnc16Result s))

/-- DPCM.DEC8 after its checks S3 to S5 (R147). -/
def dpcmDec8Body (s : State) : Completion :=
  if s.capacity < 2 * s.count then overflow (2 * s.count) else
    .success s.count 0 (bytesOf16s ((dpcmDecode 8 (signed8s s.mem s.srcBase s.count)).map widen8))

/-- How DPCM.DEC8 completes (R147). -/
def dpcmDec8Result (s : State) : Completion :=
  match extentFailure? s (srcExtent .dpcmDec8 s) with
  | some code => .failure code 0 0
  | none => dpcmDec8Body s

/-- DPCM.DEC8 (R147). -/
def execDpcmDec8 (s : State) : Host.Outcome State Fault Refusal := .next (complete s (dpcmDec8Result s))

/-- DPCM.DEC16 after its checks S3 to S5 (R148). -/
def dpcmDec16Body (s : State) : Completion :=
  if s.capacity < 2 * s.count then overflow (2 * s.count) else
    .success s.count 0 (bytesOf16s (dpcmDecode 16 (signed16s s.mem s.srcBase s.count)))

/-- How DPCM.DEC16 completes (R148). -/
def dpcmDec16Result (s : State) : Completion :=
  match extentFailure? s (srcExtent .dpcmDec16 s) with
  | some code => .failure code 0 0
  | none => dpcmDec16Body s

/-- DPCM.DEC16 (R148). -/
def execDpcmDec16 (s : State) : Host.Outcome State Fault Refusal := .next (complete s (dpcmDec16Result s))

end Sys2Proof.Machine
end

