-- ==== Sys2Proof/Machine/Env.lean ====
section
/-! DEFINITION. Machine/Env.lean: the envelope LUT generator, ENV.EXPAND (42_envelope.md). -/

namespace Sys2Proof.Machine

/-- A breakpoint: tick position and value, unsigned 16-bit integers (R180). -/
structure Breakpoint where
  x : Nat
  y : Nat
deriving DecidableEq, Repr

/-- The breakpoint record at buffer address `a` (30_encoding.md R78). -/
def breakpointAt (m : Memory) (a : Nat) : Breakpoint := ⟨zext (m.read16 a), zext (m.read16 (a + 2))⟩

/-- `n` breakpoint records from `base` (R78). -/
def breakpointsAt (m : Memory) (base n : Nat) : List Breakpoint := (List.range n).map fun k => breakpointAt m (base + 4 * k)

/-- The smallest k with `x_{k+1} ≤ x_k`, if there is one (R184, 60_exceptions.md R219). -/
def firstDisorder : List Breakpoint → Option Nat
  | p :: q :: rest => if q.x ≤ p.x then some 0 else (firstDisorder (q :: rest)).map (· + 1)
  | _ => none

/-- The 16.16 slope of a segment: `tdiv((y1 - y0) << 16, segment_length)` (R181). -/
def slope (p q : Breakpoint) : Int := tdiv (shlInt ((q.y : Int) - p.y) 16) ((q.x : Int) - p.x)

/-- The values of one segment, j = 0 .. segment_length: `y0 + asr(inc * j, 16)` (R181). -/
def segment (p q : Breakpoint) : List Int := (List.range (q.x - p.x + 1)).map fun (j : Nat) => (p.y : Int) + asr (slope p q * (j : Int)) 16

/-- `env_expand` (R181): segment after segment, the value at a shared breakpoint written twice (R182). -/
def envTable : List Breakpoint → List Int
  | p :: q :: rest => segment p q ++ envTable (q :: rest)
  | _ => []

/-- ENV.EXPAND after its checks S2 to S5 (R185): S6 gives ENV_ORDER, S7 DST_OVERFLOW, S8 writes the table. -/
def envExpandBody (s : State) : Completion :=
  let points := breakpointsAt s.mem s.srcBase s.count
  match firstDisorder points with
  | some k => .failure .envOrder 0 k
  | none =>
    let t := envTable points
    if s.capacity < 2 * t.length then overflow (2 * t.length) else .success t.length 0 (bytesOf16s t)

/-- How ENV.EXPAND completes (R184, R185): S2, the count, comes before the extents. -/
def envExpandResult (s : State) : Completion :=
  if s.count < 2 ∨ 12 < s.count then .failure .envCount 0 0
  else
    match extentFailure? s (srcExtent .envExpand s) with
    | some code => .failure code 0 0
    | none => envExpandBody s

/-- ENV.EXPAND (R185). -/
def execEnvExpand (s : State) : Host.Outcome State Fault Refusal := .next (complete s (envExpandResult s))

end Sys2Proof.Machine
end

