-- ==== Sys2Proof/Machine/Dispatch.lean ====
section
/-! DEFINITION. Machine/Dispatch.lean: the meaning of each command, one arm per constructor of Instr. -/

namespace Sys2Proof.Machine

def exec (i : Instr) (s : State) : Host.Outcome State Fault Refusal :=
  match i with
  | .cellUnpack => Sys2Proof.Machine.execCellUnpack s
  | .cellPack => Sys2Proof.Machine.execCellPack s
  | .dpcmEnc8 => Sys2Proof.Machine.execDpcmEnc8 s
  | .dpcmEnc16 => Sys2Proof.Machine.execDpcmEnc16 s
  | .dpcmDec8 => Sys2Proof.Machine.execDpcmDec8 s
  | .dpcmDec16 => Sys2Proof.Machine.execDpcmDec16 s
  | .envExpand => Sys2Proof.Machine.execEnvExpand s

end Sys2Proof.Machine
end

