-- ==== Sys2Proof/Machine/Bus.lean ====
section
/-! DEFINITION. Machine/Bus.lean: what the Host can do to the machine: the register window (10_state.md R23 to R37), its
accesses to buffer memory with the hazards R244 and R245, and reset (70_reset_and_hazards.md R240, R241). -/

namespace Sys2Proof.Machine

/-! The register window. -/

/-- The offset of a register (R23). -/
def Reg.offset : Reg → BitVec 8
  | .cmd => 0x00
  | .status => 0x04
  | .srcAddr => 0x08
  | .srcLen => 0x0C
  | .dstAddr => 0x10
  | .dstCap => 0x14
  | .arg0 => 0x18
  | .arg1 => 0x1C
  | .res0 => 0x20
  | .res1 => 0x24

/-- The register at an offset, if it is not reserved (R23, R34). -/
def Reg.atOffset? (offset : BitVec 8) : Option Reg :=
  match offset.toNat with
  | 0x00 => some .cmd
  | 0x04 => some .status
  | 0x08 => some .srcAddr
  | 0x0C => some .srcLen
  | 0x10 => some .dstAddr
  | 0x14 => some .dstCap
  | 0x18 => some .arg0
  | 0x1C => some .arg1
  | 0x20 => some .res0
  | 0x24 => some .res1
  | _ => none

/-- What a register reads as; reading has no side effect (R24 to R33, 20_memory.md R58). -/
def State.readReg (s : State) : Reg → Word
  | .cmd => s.cmd
  | .status => s.statusWord
  | .srcAddr => s.srcAddr
  | .srcLen => s.srcLen
  | .dstAddr => s.dstAddr
  | .dstCap => s.dstCap
  | .arg0 => s.arg0
  | .arg1 => s.arg1
  | .res0 => s.res0
  | .res1 => s.res1

/-- A write to CMD while IDLE starts a command, whatever the value (R24). -/
def State.start (s : State) (v : Word) : State := { s with cmd := v, done := false, phase := .busy }

/-- A configuration write: it takes effect while IDLE; while BUSY it is ignored and sets OVERRUN (R37). -/
def State.configWrite (s t : State) : State := if s.busy then s.markOverrun else t

/-- The Host writes `v` to a register (R24 to R33, R37). -/
def State.writeReg (s : State) (v : Word) : Reg → State
  | .cmd => s.configWrite (s.start v)
  | .status => s.clearFlags v
  | .srcAddr => s.configWrite { s with srcAddr := v }
  | .srcLen => s.configWrite { s with srcLen := v }
  | .dstAddr => s.configWrite { s with dstAddr := v }
  | .dstCap => s.configWrite { s with dstCap := v }
  | .arg0 => s.configWrite { s with arg0 := v }
  | .arg1 => s.configWrite { s with arg1 := v }
  | .res0 => s
  | .res1 => s

/-- A read at an offset: a reserved offset reads 0 (R34). -/
def State.readOffset (s : State) (offset : BitVec 8) : Word :=
  match Reg.atOffset? offset with
  | some r => s.readReg r
  | none => 0

/-- A write at an offset: at a reserved offset it is ignored and never sets OVERRUN (R34). -/
def State.writeOffset (s : State) (offset : BitVec 8) (v : Word) : State :=
  match Reg.atOffset? offset with
  | some r => s.writeReg v r
  | none => s

/-- A register access is 32 bits wide, at a multiple of 4 (R35). -/
def windowAccessLegal (offset : BitVec 8) (width : Nat) : Bool := width == 4 && offset.toNat % 4 == 0

/-! The extents of a running command. -/

/-- The command the Unit runs: the command word, decoded (30_encoding.md R74). -/
def fetch (s : State) : Except Illegal Instr := decode s.cmd

/-- The source extent of the running command (R212); an illegal word has none (LOG 8). -/
def State.runningSource (s : State) : Extent :=
  match fetch s with
  | .ok i => srcExtent i s
  | .error _ => ⟨s.srcBase, 0⟩

/-- A Host write that R244 forbids: while BUSY, to a byte of the running command's source or destination extent. -/
def State.writeHazard (s : State) (e : Extent) : Bool :=
  s.busy && (e.overlaps s.runningSource || e.overlaps s.dstExtent)

/-- The byte the Host reads at address `a`: while BUSY a byte of the destination extent is a draw (R245; LOG 9). -/
def State.hostByte (s : State) (a draw : Nat) : Byte :=
  if s.busy && s.dstExtent.has a then Config.freeByte draw else s.mem.read a

/-- The bytes the Host reads from `a` up; each has a draw of its own. -/
def State.hostBytes (s : State) (a n : Nat) : List Byte := (List.range n).map fun i => s.hostByte (a + i) (s.draws + i)

/-- One Host access. -/
def hostAccess (a : HostAction) (s : State) : Host.Outcome State Fault Refusal :=
  match a with
  | .regWrite offset data =>
    if windowAccessLegal offset data.length then
      match wordOf? data with
      | some v => .next (s.writeOffset offset v)
      | none => .refused .windowAccess
    else .refused .windowAccess
  | .regRead offset width =>
    if windowAccessLegal offset width then .next (s.deliver (wordBytes (s.readOffset offset)))
    else .refused .windowAccess
  | .memWrite addr data =>
    let e : Extent := ⟨zext addr, data.length⟩
    if !e.inRange s.memSize.val then .refused .bufferAddress
    else if s.writeHazard e then .fault .hostWroteRunningExtent
    else .next (s.withMem (s.mem.writeBytes (zext addr) data))
  | .memRead addr count =>
    let e : Extent := ⟨zext addr, count⟩
    if !e.inRange s.memSize.val then .refused .bufferAddress
    else .next ((s.deliver (s.hostBytes (zext addr) count)).drawn (if s.busy then count else 0))

/-! Reset. -/

/-- Every register at its reset value and phase IDLE; buffer memory is not written (10_state.md R42, R240). -/
def State.clearRegs (s : State) : State :=
  { s with
    phase := .idle
    cmd := 0
    done := false
    overrun := false
    code := .ok
    srcAddr := 0
    srcLen := 0
    dstAddr := 0
    dstCap := 0
    arg0 := 0
    arg1 := 0
    res0 := 0
    res1 := 0 }

/-- How many bytes of the destination extent exist: those below MEM_SIZE (LOG 10). -/
def State.dstBytes (s : State) : Nat := min (s.dstBase + s.capacity) s.memSize.val - s.dstBase

/-- The destination extent of an abandoned command: every byte of it is a draw (R241; LOG 7). -/
def State.scrambleDst (s : State) : State :=
  (s.withMem (s.mem.writeBytes s.dstBase ((List.range s.dstBytes).map fun i => Config.freeByte (s.draws + i)))).drawn s.dstBytes

/-- Reset (R240); while BUSY it abandons the running command (R241). -/
def applyReset (s : State) : State := if s.busy then s.scrambleDst.clearRegs else s.clearRegs

end Sys2Proof.Machine
end

