-- ==== Sys2Proof/Machine/Schedule.lean ====
section
/-! DEFINITION. Machine/Schedule.lean: which agent moves next, read from the pending inputs in State (00_scope.md R6,
70_reset_and_hazards.md R243; LOG 1). -/

namespace Sys2Proof.Machine

/-- Who makes the next step. -/
inductive Mover where
  /-- The Unit. -/
  | unit
  /-- The Host, with this access. -/
  | host (action : HostAction)
  /-- Reset. -/
  | reset
deriving DecidableEq, Repr

/-- The Host's poll: a read of STATUS (30_encoding.md R85). -/
def pollStatus : HostAction := .regRead Reg.status.offset 4

/-- Who moves next, and the state with that input taken. With nothing pending the Unit moves: its Completion always happens
after finitely many Host steps (R243). A WAIT stays pending while BUSY = 1, and its last poll, which sees BUSY = 0, ends it
(LOG 12). -/
def nextMove (s : State) : Mover × State :=
  match s.agenda with
  | [] => (.unit, s)
  | .unit :: rest => (.unit, s.withAgenda rest)
  | .host a :: rest => (.host a, s.withAgenda rest)
  | .wait :: rest => if s.busy then (.unit, s) else (.host pollStatus, s.withAgenda rest)
  | .reset :: rest => (.reset, s.withAgenda rest)

/-- The state in which the Unit's next step runs the command of these bits: CMD holds them, the command is started as R24 says,
and the Unit's turn comes first (LOG 2). -/
def State.placeCommand (s : State) (w : Word) : State := (s.start w).withAgenda (.unit :: s.agenda)

end Sys2Proof.Machine
end

