-- ==== Sys2Proof/Machine/Step.lean ====
section
/-! DEFINITION. Machine/Step.lean: one step of the machine (70_reset_and_hazards.md R243), and how the host places a command. -/

namespace Sys2Proof.Machine

/-- The Unit's step: while BUSY, the Completion of the command in CMD, or BAD_OP (R243, 60_exceptions.md R213); while IDLE the
Unit waits (R223). -/
def unitStep (s : State) : Host.Outcome State Fault Refusal :=
  match s.phase with
  | .idle => .next s
  | .busy =>
    match fetch s with
    | .ok i => exec i s
    | .error _ => .next (completeBadOp s)

/-- One step: the agent whose turn it is moves. -/
def step (s : State) : Host.Outcome State Fault Refusal :=
  match nextMove s with
  | (.unit, t) => unitStep t
  | (.host a, t) => hostAccess a t
  | (.reset, t) => .next (applyReset t)

/-- `s` with the command of those bits started, so that the very next step is the Unit's and runs it (LOG 2). -/
def State.withFetchWord (s : State) (nbits w : Nat) : State := s.placeCommand (tableWord nbits w)

end Sys2Proof.Machine
end

