-- ==== Sys2Proof/Machine/HostProgram.lean ====
section
/-! DEFINITION. Machine/HostProgram.lean: the Host-program notation (30_encoding.md R85) and the seven pseudo-instructions
(R86), as pending inputs. -/

namespace Sys2Proof.Machine

/-- `WR <REG>, value`: the pair (offset of REG, value) on the bus (R85). -/
def wr (r : Reg) (v : Word) : Event := .host (.regWrite r.offset (wordBytes v))

/-- `RD <REG>` (R85). -/
def rd (r : Reg) : Event := .host (.regRead r.offset 4)

/-- `WAIT` (R85). -/
def waitDone : Event := .wait

/-- `MEMB addr: bytes` (R85). -/
def memb (addr : Word) (bytes : List Byte) : Event := .host (.memWrite addr bytes)

/-- `MEMH addr: values`: little-endian 16-bit values (R85). -/
def memh (addr : Word) (values : List Half) : Event := .host (.memWrite addr (values.flatMap halfBytes))

/-- `CELL.UNPACK src, L, dst, cap, rows, ch` (R86). -/
def pseudoCellUnpack (src len dst cap rows ch : Word) : List Event :=
  [wr .srcAddr src, wr .srcLen len, wr .dstAddr dst, wr .dstCap cap, wr .arg0 rows, wr .arg1 ch,
    wr .cmd (encode .cellUnpack), waitDone]

/-- `CELL.PACK src, dst, cap, rows, ch` (R86). -/
def pseudoCellPack (src dst cap rows ch : Word) : List Event :=
  [wr .srcAddr src, wr .dstAddr dst, wr .dstCap cap, wr .arg0 rows, wr .arg1 ch, wr .cmd (encode .cellPack), waitDone]

/-- The shape the DPCM and ENV pseudo-instructions share (R86). -/
def pseudoOneArg (i : Instr) (src dst cap n : Word) : List Event :=
  [wr .srcAddr src, wr .dstAddr dst, wr .dstCap cap, wr .arg0 n, wr .cmd (encode i), waitDone]

/-- `DPCM.ENC8 src, dst, cap, n` (R86). -/
def pseudoDpcmEnc8 (src dst cap n : Word) : List Event := pseudoOneArg .dpcmEnc8 src dst cap n

/-- `DPCM.ENC16 src, dst, cap, n` (R86). -/
def pseudoDpcmEnc16 (src dst cap n : Word) : List Event := pseudoOneArg .dpcmEnc16 src dst cap n

/-- `DPCM.DEC8 src, dst, cap, n` (R86). -/
def pseudoDpcmDec8 (src dst cap n : Word) : List Event := pseudoOneArg .dpcmDec8 src dst cap n

/-- `DPCM.DEC16 src, dst, cap, n` (R86). -/
def pseudoDpcmDec16 (src dst cap n : Word) : List Event := pseudoOneArg .dpcmDec16 src dst cap n

/-- `ENV.EXPAND src, dst, cap, count` (R86). -/
def pseudoEnvExpand (src dst cap count : Word) : List Event := pseudoOneArg .envExpand src dst cap count

end Sys2Proof.Machine
end

