-- ==== Sys2Proof/Safety.lean ====
section
/-! DEFINITION. Safety.lean: the machine's invariant, and what a safe step and a safe run are. -/

namespace Sys2Proof.Machine

/-- Every listed byte of buffer memory has an address below MEM_SIZE (10_state.md R38). -/
def Memory.below (size : Nat) (m : Memory) : Bool := m.all fun c => decide (c.1 < size)

/-- The invariant of the machine. -/
structure State.Inv (s : State) : Prop where
  /-- Buffer memory is in canonical form. -/
  memWf : s.mem.wf = true
  /-- No byte lies outside buffer memory (R38, 60_exceptions.md R214). -/
  memBelow : s.mem.below s.memSize.val = true
  /-- While BUSY, DONE is 0 (10_state.md R25: "since DONE is already 0"). -/
  busyNotDone : s.phase = .busy → s.done = false

/-- The step does not stop. -/
def SafeStep (s : State) : Prop := ∃ t, step s = .next t

/-- The Host keeps its duty at this step: its next access, if it is the Host's turn, is a 32-bit aligned register access
(R35) or lies in buffer memory (R233) and, if it writes there, keeps clear of the running command's extents (R244). -/
def HostKeepsDuty (s : State) : Prop :=
  match nextMove s with
  | (.unit, _) => True
  | (.reset, _) => True
  | (.host a, t) =>
    match a with
    | .regWrite offset data => windowAccessLegal offset data.length = true
    | .regRead offset width => windowAccessLegal offset width = true
    | .memWrite addr data =>
      Extent.inRange t.memSize.val ⟨zext addr, data.length⟩ = true ∧ t.writeHazard ⟨zext addr, data.length⟩ = false
    | .memRead addr count => Extent.inRange t.memSize.val ⟨zext addr, count⟩ = true

/-- `k` steps from `s` do not stop. -/
def SafeRun (k : Nat) (s : State) : Prop := ∃ t, Host.Core.run Sys2Proof.core k s = .next t

end Sys2Proof.Machine
end

