-- ==== Sys2Proof/Vocabulary.lean ====
section
/-! DEFINITION. Vocabulary.lean: the words the statements use. They are written from the spec's rules over single bytes and
elements of buffer memory, apart from the lists and recursions of the meanings, so that a statement compares two readings of
the rule. -/

namespace Sys2Proof.Machine

/-! What every command does. -/

/-- Checks S3 to S5 of 60_exceptions.md R212 pass. -/
def ExtentsGood (i : Instr) (s : State) : Prop :=
  (srcExtent i s).inRange s.memSize.val = true ∧ s.dstExtent.inRange s.memSize.val = true ∧
    (srcExtent i s).overlaps s.dstExtent = false

/-- `finish(code, res0, res1)` has happened (00_scope.md R11). -/
def Finished (t : State) (code : Code) (res0 : Nat) (res1 : Int) : Prop :=
  t.phase = .idle ∧ t.done = true ∧ t.code = code ∧ t.res0 = BitVec.ofNat 32 res0 ∧ t.res1 = bitsOf 32 res1

/-- The operand registers and CMD are the same (10_state.md R40). -/
def OperandsKept (s t : State) : Prop :=
  t.cmd = s.cmd ∧ t.srcAddr = s.srcAddr ∧ t.srcLen = s.srcLen ∧ t.dstAddr = s.dstAddr ∧ t.dstCap = s.dstCap ∧
    t.arg0 = s.arg0 ∧ t.arg1 = s.arg1

/-- Everything a command does not write, buffer memory apart: CMD, the operand registers, OVERRUN (R36), the parameter
MEM_SIZE and the model's own fields. -/
def CommandFrame (s t : State) : Prop :=
  OperandsKept s t ∧ t.overrun = s.overrun ∧ t.memSize = s.memSize ∧ t.agenda = s.agenda ∧ t.hostData = s.hostData ∧
    t.draws = s.draws

/-- Every byte outside `[base, base + size)` reads as before. -/
def MemoryKeptOutside (s t : State) (base size : Nat) : Prop :=
  ∀ a, ¬(base ≤ a ∧ a < base + size) → t.mem.read a = s.mem.read a

/-- The command ends with this code and these results, and no byte of buffer memory changes. -/
def EndsWith (i : Instr) (s : State) (code : Code) (res0 : Nat) (res1 : Int) : Prop :=
  ∃ t, exec i s = .next t ∧ Finished t code res0 res1 ∧ CommandFrame s t ∧ ∀ a, t.mem.read a = s.mem.read a

/-! The cell stream (30_encoding.md R80 to R84). -/

/-- Stream byte `b[p] = MemRead(S + p, 1)` (40_pattern_cell.md). -/
def streamByte (s : State) (p : Nat) : Byte := s.mem.read (s.srcBase + p)

/-- The number of set bits of `m[k-1:0]`. -/
def bitsBelow (m : Byte) : Nat → Nat
  | 0 => 0
  | k + 1 => bitsBelow m k + (if m.getLsbD k then 1 else 0)

/-- R83: a cell whose first byte is `m` takes 5 bytes if bit 7 is clear, `1 + popcount(m[4:0])` if it is set. -/
def cellLength (m : Byte) : Nat := if m.getLsbD 7 then 1 + bitsBelow m 5 else 5

/-- Where cell `k` of a stream begins: the cells before it, each of the length of R83. -/
def cursor (b : Nat → Byte) : Nat → Nat
  | 0 => 0
  | k + 1 => cursor b k + cellLength (b (cursor b k))

/-- Field `k` (note, instrument, volume, fxtype, fxparam) of the cell that begins at `pos` (R80 to R82): in the legacy form
the byte at `pos + k`; in the compressed form the byte after the present fields before it, or 0 when its bit is clear. -/
def fieldByte (b : Nat → Byte) (pos k : Nat) : Byte :=
  if (b pos).getLsbD 7 then (if (b pos).getLsbD k then b (pos + 1 + bitsBelow (b pos) k) else 0) else b (pos + k)

/-- The cell record number `k` of CELL.PACK's source matrix (R77). -/
def sourceCell (s : State) (k : Nat) : Cell := cellAt s.mem (s.srcBase + 6 * k)

/-- Where the packed bytes of cell `k` begin (R106). -/
def packOffset (s : State) : Nat → Nat
  | 0 => 0
  | k + 1 => packOffset s k + (packCell (sourceCell s k)).length

/-- The round-trip condition of R109: the note is at most 0x7F or some non-note field is non-zero. -/
def RoundTrips (c : Cell) : Prop :=
  c.note.toNat ≤ 0x7F ∨ c.instrument ≠ 0 ∨ c.volume ≠ 0 ∨ c.fxtype ≠ 0 ∨ c.fxparam ≠ 0

/-- The five non-mask fields are equal. -/
def SameFields (c d : Cell) : Prop :=
  c.note = d.note ∧ c.instrument = d.instrument ∧ c.volume = d.volume ∧ c.fxtype = d.fxtype ∧ c.fxparam = d.fxparam

/-! DPCM (41_dpcm.md). -/

/-- PCM16 sample, or DPCM16 element, number `i` of the source (30_encoding.md R75, R76). -/
def source16 (s : State) (i : Nat) : Int := sext (s.mem.read16 (s.srcBase + 2 * i))

/-- DPCM8 element number `i` of the source (R76). -/
def source8 (s : State) (i : Nat) : Int := sext (s.mem.read (s.srcBase + i))

/-- The recurrence of R141 over sequences of length `n`: deltas, carry and error count after each step. -/
structure EncoderRun (N n : Nat) (p d carry : Nat → Int) (err : Nat → Nat) : Prop where
  first : 0 < n → d 0 = p 0
  noCarry : carry 0 = 0
  noError : err 0 = 0
  high : ∀ i, i + 1 < n → maxInt N < p (i + 1) - p i + carry i →
    d (i + 1) = maxInt N ∧ carry (i + 1) = p (i + 1) - p i + carry i - maxInt N ∧ err (i + 1) = err i + 1
  low : ∀ i, i + 1 < n → p (i + 1) - p i + carry i < minInt N →
    d (i + 1) = minInt N ∧ carry (i + 1) = p (i + 1) - p i + carry i - minInt N ∧ err (i + 1) = err i + 1
  inside : ∀ i, i + 1 < n → minInt N ≤ p (i + 1) - p i + carry i → p (i + 1) - p i + carry i ≤ maxInt N →
    d (i + 1) = p (i + 1) - p i + carry i ∧ carry (i + 1) = 0 ∧ err (i + 1) = err i

/-- The recurrence of R142. -/
structure DecoderRun (N n : Nat) (d q : Nat → Int) : Prop where
  first : 0 < n → q 0 = d 0
  next : ∀ i, i + 1 < n → q (i + 1) = wrapInt N (q i + d (i + 1))

/-- An integer of the representable range of width N (R140). -/
def InWidth (N : Nat) (v : Int) : Prop := minInt N ≤ v ∧ v ≤ maxInt N

/-- The encoder's carry after step `i` (R143): the carry of the first `i + 1` samples. -/
def carryAfter (N : Nat) (p : List Int) (i : Nat) : Int := (dpcmEncode N (p.take (i + 1))).carry

/-! The envelope (42_envelope.md). -/

/-- Tick position of breakpoint `k` of the source (30_encoding.md R78). -/
def pointX (s : State) (k : Nat) : Nat := zext (s.mem.read16 (s.srcBase + 4 * k))

/-- Value of breakpoint `k` of the source (R78). -/
def pointY (s : State) (k : Nat) : Nat := zext (s.mem.read16 (s.srcBase + 4 * k + 2))

/-- The tick positions strictly increase (R180). -/
def Increasing (s : State) : Prop := ∀ k, k + 1 < s.count → pointX s k < pointX s (k + 1)

/-- `T = (x_{count-1} - x_0) + (count - 1)` (R183). -/
def tableLength (s : State) : Nat := (pointX s (s.count - 1) - pointX s 0) + (s.count - 1)

/-- The j-th value of a segment from `y0` to `y1` over `len` ticks: `y0 + asr(tdiv((y1 - y0) << 16, len) * j, 16)` (R181). -/
def segmentValue (y0 y1 len j : Nat) : Int := (y0 : Int) + asr (tdiv (((y1 : Int) - y0) * 65536) len * j) 16

/-! The checks of R212 for all commands. -/

/-- Checks S2 and S6 of R212 pass: the checks of the operands and the source data that CELL.UNPACK and ENV.EXPAND have. -/
def DataGood (i : Instr) (s : State) : Prop :=
  match i with
  | .cellUnpack => cursor (streamByte s) s.cellCount = s.declaredLen
  | .cellPack => True
  | .dpcmEnc8 => True
  | .dpcmEnc16 => True
  | .dpcmDec8 => True
  | .dpcmDec16 => True
  | .envExpand => 2 ≤ s.count ∧ s.count ≤ 12 ∧ Increasing s

/-- The column output_size of the table of R212. -/
def outputSize (i : Instr) (s : State) : Nat :=
  match i with
  | .cellUnpack => 6 * s.cellCount
  | .cellPack => packOffset s s.cellCount
  | .dpcmEnc8 => s.count
  | .dpcmEnc16 => 2 * s.count
  | .dpcmDec8 => 2 * s.count
  | .dpcmDec16 => 2 * s.count
  | .envExpand => 2 * tableLength s

/-- The two states agree on all that the command may depend on (70_reset_and_hazards.md R243): the latched registers, MEM_SIZE
and the bytes of its source extent. -/
def SameInputs (i : Instr) (s t : State) : Prop :=
  OperandsKept s t ∧ t.memSize = s.memSize ∧ ∀ a, (srcExtent i s).has a = true → t.mem.read a = s.mem.read a

/-- Two completions of a command from `s` that show the Host the same: CODE, RES0, RES1 and, when the code is OK, every output
byte. -/
def SameCompletion (i : Instr) (s t u : State) : Prop :=
  u.code = t.code ∧ u.res0 = t.res0 ∧ u.res1 = t.res1 ∧
    (t.code = .ok → ∀ a, s.dstBase ≤ a → a < s.dstBase + outputSize i s → u.mem.read a = t.mem.read a)

/-- The six operand registers and their offsets (10_state.md R23). -/
def operandOffsets : List (Reg × BitVec 8) :=
  [(.srcAddr, 0x08), (.srcLen, 0x0C), (.dstAddr, 0x10), (.dstCap, 0x14), (.arg0, 0x18), (.arg1, 0x1C)]

/-- The table of R23: each register, its offset and the word it holds. -/
def windowRows (s : State) : List (Reg × BitVec 8 × Word) :=
  [(.cmd, 0x00, s.cmd), (.status, 0x04, s.statusWord), (.srcAddr, 0x08, s.srcAddr), (.srcLen, 0x0C, s.srcLen),
    (.dstAddr, 0x10, s.dstAddr), (.dstCap, 0x14, s.dstCap), (.arg0, 0x18, s.arg0), (.arg1, 0x1C, s.arg1),
    (.res0, 0x20, s.res0), (.res1, 0x24, s.res1)]

/-- Bytes `2i` and `2i + 1` of an output, as a little-endian 16-bit element (20_memory.md R51). -/
def outputHalf (out : Nat → Byte) (i : Nat) : Half := halfOf (out (2 * i)) (out (2 * i + 1))

/-- `out p`, for p below the output size, is byte `p` of what the rule of the command writes from DST_ADDR up. -/
def IsOutput (i : Instr) (s : State) (out : Nat → Byte) : Prop :=
  match i with
  | .cellUnpack => ∀ k, k < s.cellCount →
      out (6 * k) = streamByte s (cursor (streamByte s) k) ∧
      ∀ f, f < 5 → out (6 * k + 1 + f) = fieldByte (streamByte s) (cursor (streamByte s) k) f
  | .cellPack => ∀ k, k < s.cellCount → ∀ (p : Nat) (h : p < (packCell (sourceCell s k)).length),
      out (packOffset s k + p) = (packCell (sourceCell s k))[p]
  | .dpcmEnc8 => ∃ (d carry : Nat → Int) (err : Nat → Nat),
      EncoderRun 8 s.count (fun i => narrow8 (source16 s i)) d carry err ∧ ∀ i, i < s.count → out i = bitsOf 8 (d i)
  | .dpcmEnc16 => ∃ (d carry : Nat → Int) (err : Nat → Nat),
      EncoderRun 16 s.count (source16 s) d carry err ∧ ∀ i, i < s.count → outputHalf out i = bitsOf 16 (d i)
  | .dpcmDec8 => ∃ q : Nat → Int,
      DecoderRun 8 s.count (source8 s) q ∧ ∀ i, i < s.count → outputHalf out i = bitsOf 16 (q i * 256)
  | .dpcmDec16 => ∃ q : Nat → Int,
      DecoderRun 16 s.count (source16 s) q ∧ ∀ i, i < s.count → outputHalf out i = bitsOf 16 (q i)
  | .envExpand => ∀ k j, k + 1 < s.count → j ≤ pointX s (k + 1) - pointX s k →
      outputHalf out ((pointX s k - pointX s 0) + k + j) =
        bitsOf 16 (segmentValue (pointY s k) (pointY s (k + 1)) (pointX s (k + 1) - pointX s k) j)

end Sys2Proof.Machine
end

