-- ==== Sys2Proof/Certificates/Slice0/Obligations.lean ====
section
/-! DEFINITION. Certificates/Slice0/Obligations.lean: the statements about XMCODEC, each from a rule of spec/. -/

open Sys2Proof Sys2Proof.Machine

/-! ## Command words -/

/-- 30_encoding.md R71: the seven command words, written out bit by bit; the last as bus bytes too (20_memory.md R51). -/
def Obligations.CommandWordsDecode : Prop :=
  decode 0b00000000000000000000000000000001 = .ok .cellUnpack ∧
  decode 0b00000000000000000000000000000010 = .ok .cellPack ∧
  decode 0b00000000000000000000000000000011 = .ok .dpcmEnc8 ∧
  decode 0b00000000000000000000000000000100 = .ok .dpcmEnc16 ∧
  decode 0b00000000000000000000000000000101 = .ok .dpcmDec8 ∧
  decode 0b00000000000000000000000000000110 = .ok .dpcmDec16 ∧
  decode 0b00000000000000000000000000000111 = .ok .envExpand ∧
  decodeBytes [0x07, 0x00, 0x00, 0x00] = .ok .envExpand

/-- R71, R51: decoding the encoding of a command gives it back, as a word and as bus bytes, and its word is legal. -/
def Obligations.EncodedCommandsDecodeBack : Prop :=
  ∀ i : Instr, i.wellFormed = true ∧ CommandWord.legal (encode i) = true ∧ decode (encode i) = .ok i ∧
    decodeBytes (encodeBytes i) = .ok i ∧ decodeTableWord 32 (encode i).toNat = some i

/-- R74: every 32-bit word selects exactly one of the seven commands, by the full 32 bits, or is illegal; R70: legal exactly
when RSVD = 0 and OP is one of the seven codes. -/
def Obligations.EveryWordIsOneCommandOrIllegal : Prop :=
  (∀ (w : Word) (i : Instr), decode w = .ok i ↔ w = encode i) ∧
  (∀ w : Word, (∃ i, w = encode i) ↔ CommandWord.legal w = true) ∧
  (∀ w : Word, CommandWord.legal w = true ↔ w.toNat / 16 = 0 ∧ 1 ≤ w.toNat % 16 ∧ w.toNat % 16 ≤ 7) ∧
  (∀ w : Word, (∃ e, decode w = .error e) ↔ CommandWord.legal w = false)

/-! ## The step -/

/-- 70_reset_and_hazards.md R243: when it is the Unit's turn and a command is running, a step is `exec` of the command in CMD,
with the turn taken off the pending inputs. The agenda is the model's (LOG 1). -/
def Obligations.StepRunsTheCommandInCmd : Prop :=
  ∀ (s : State) (i : Instr) (rest : List Event), s.phase = .busy → decode s.cmd = .ok i →
    (s.agenda = [] → step s = exec i s) ∧
    (s.agenda = .unit :: rest → step s = exec i (s.withAgenda rest)) ∧
    (s.agenda = .wait :: rest → step s = exec i s)

/-- 60_exceptions.md R213, 30_encoding.md R72: an illegal word written to CMD while IDLE starts a command that completes with
`finish(BAD_OP, 0, 0)`, touching no buffer memory and no other register. The pending inputs are the model's (LOG 1). -/
def Obligations.IllegalWordCompletesWithBadOp : Prop :=
  ∀ (s : State) (w : Word) (rest : List Event), s.phase = .idle → s.agenda = .host (.regWrite 0x00 (wordBytes w)) :: .unit :: rest →
    (w.extractLsb' 4 28 ≠ 0 ∨ w.extractLsb' 0 4 = 0 ∨ 8 ≤ (w.extractLsb' 0 4).toNat) →
    ∃ u t, step s = .next u ∧ step u = .next t ∧ Finished t .badOp 0 0 ∧ t.cmd = w ∧ t.mem = s.mem ∧
      t.srcAddr = s.srcAddr ∧ t.srcLen = s.srcLen ∧ t.dstAddr = s.dstAddr ∧ t.dstCap = s.dstCap ∧ t.arg0 = s.arg0 ∧
      t.arg1 = s.arg1 ∧ t.overrun = s.overrun ∧ t.memSize = s.memSize ∧ t.agenda = rest

/-- 30_encoding.md R85, 20_memory.md R61: a WAIT ends: the Unit completes, whatever CMD holds, and the last poll reads a STATUS
with BUSY = 0 and DONE = 1. That a WAIT makes one poll, after the completion, is the model's choice (LOG 12), and so are the
pending inputs (LOG 1). -/
def Obligations.WaitEndsAfterCompletion : Prop :=
  ∀ (s : State) (rest : List Event), s.phase = .busy → s.agenda = .wait :: rest →
    ∃ t u, step s = .next t ∧ step t = .next u ∧ u.phase = .idle ∧ u.done = true ∧ u.agenda = rest ∧ u.mem = t.mem ∧
      u.hostData = wordBytes u.statusWord ∧ u.statusWord.getLsbD 0 = false ∧ u.statusWord.getLsbD 1 = true

/-! ## The register window -/

/-- 10_state.md R24: a write to CMD while IDLE sets CMD, clears DONE and starts the command, for every value; while BUSY it is
ignored and sets OVERRUN, and nothing else changes. A read returns the last value accepted. -/
def Obligations.CmdWriteStartsOrOverruns : Prop :=
  ∀ (s : State) (w : Word),
    (s.phase = .idle → ∃ t, hostAccess (.regWrite 0x00 (wordBytes w)) s = .next t ∧
      t = { s with cmd := w, done := false, phase := .busy } ∧ t.readReg .cmd = w ∧ t.statusWord.getLsbD 0 = true ∧
      t.statusWord.getLsbD 1 = false ∧ ∀ r, r ≠ .cmd → r ≠ .status → t.readReg r = s.readReg r) ∧
    (s.phase = .busy → ∃ t, hostAccess (.regWrite 0x00 (wordBytes w)) s = .next t ∧ t = { s with overrun := true } ∧
      t.done = s.done ∧ t.code = s.code ∧ t.phase = .busy ∧ t.mem = s.mem ∧ t.statusWord = s.statusWord ||| 0x00000004 ∧
      ∀ r, r ≠ .status → t.readReg r = s.readReg r)

/-- R23, R26 to R31: any value may be written to an operand register, at its offset, while IDLE, and a read returns it; nothing
else changes. -/
def Obligations.OperandRegistersHoldWhatIsWritten : Prop :=
  ∀ (s : State) (r : Reg) (o : BitVec 8) (w : Word), s.phase = .idle → (r, o) ∈ operandOffsets →
    ∃ t, hostAccess (.regWrite o (wordBytes w)) s = .next t ∧ t.readReg r = w ∧ t.readOffset o = w ∧
      (∀ q, q ≠ r → t.readReg q = s.readReg q) ∧ t.phase = .idle ∧ t.mem = s.mem ∧ t.memSize = s.memSize

/-- R37, R32, R33: while BUSY a write to CMD or an operand register leaves it unchanged and sets OVERRUN, and nothing else
changes. A write to RES0 or RES1, in either phase, or to a reserved offset is ignored and never sets OVERRUN. -/
def Obligations.WritesWhileBusyAreDropped : Prop :=
  ∀ (s : State) (w : Word),
    (s.phase = .busy → ∀ (r : Reg) (o : BitVec 8), (r, o) ∈ (Reg.cmd, 0x00) :: operandOffsets →
      ∃ t, hostAccess (.regWrite o (wordBytes w)) s = .next t ∧ t = { s with overrun := true } ∧
        (∀ q, q ≠ .status → t.readReg q = s.readReg q) ∧ OperandsKept s t ∧ t.phase = .busy ∧ t.done = s.done ∧
        t.code = s.code ∧ t.res0 = s.res0 ∧ t.res1 = s.res1 ∧ t.mem = s.mem) ∧
    hostAccess (.regWrite 0x20 (wordBytes w)) s = .next s ∧ hostAccess (.regWrite 0x24 (wordBytes w)) s = .next s ∧
    (∀ o : BitVec 8, 0x28 ≤ o.toNat → o.toNat % 4 = 0 → hostAccess (.regWrite o (wordBytes w)) s = .next s)

/-- R25: a write to STATUS, in either phase, clears DONE and OVERRUN where a 1 is written and changes nothing else: BUSY, CODE
and the reserved bits keep their values. -/
def Obligations.StatusWriteClearsDoneAndOverrun : Prop :=
  ∀ (s : State) (w : Word), ∃ t, hostAccess (.regWrite 0x04 (wordBytes w)) s = .next t ∧
    t.statusWord = s.statusWord &&& ~~~(w &&& 0x00000006) ∧ t.phase = s.phase ∧ t.code = s.code ∧
    (∀ r, r ≠ .status → t.readReg r = s.readReg r) ∧ t.mem = s.mem

/-- R25: the fields of STATUS as the Host reads them; the reserved bits 7:3 and 31:12 read 0; CODE is never above 0x8.
60_exceptions.md R211: the nine values of CODE. -/
def Obligations.StatusShowsItsFields : Prop :=
  ∀ s : State,
    (s.statusWord.getLsbD 0 = true ↔ s.phase = .busy) ∧ s.statusWord.getLsbD 1 = s.done ∧
    s.statusWord.getLsbD 2 = s.overrun ∧ s.statusWord.extractLsb' 8 4 = s.code.bits ∧ s.code.bits.toNat ≤ 8 ∧
    s.statusWord.extractLsb' 3 5 = 0 ∧ s.statusWord.extractLsb' 12 20 = 0 ∧
    (s.code = .ok ↔ s.statusWord.extractLsb' 8 4 = 0x0) ∧ (s.code = .badOp ↔ s.statusWord.extractLsb' 8 4 = 0x1) ∧
    (s.code = .addrRange ↔ s.statusWord.extractLsb' 8 4 = 0x2) ∧ (s.code = .overlap ↔ s.statusWord.extractLsb' 8 4 = 0x3) ∧
    (s.code = .truncated ↔ s.statusWord.extractLsb' 8 4 = 0x4) ∧ (s.code = .corrupt ↔ s.statusWord.extractLsb' 8 4 = 0x5) ∧
    (s.code = .envCount ↔ s.statusWord.extractLsb' 8 4 = 0x6) ∧ (s.code = .envOrder ↔ s.statusWord.extractLsb' 8 4 = 0x7) ∧
    (s.code = .dstOverflow ↔ s.statusWord.extractLsb' 8 4 = 0x8)

/-- R34: a reserved offset reads 0x00000000, a write there is ignored, and neither has any other effect, in either phase. -/
def Obligations.ReservedOffsetsReadZero : Prop :=
  ∀ (s : State) (o : BitVec 8) (w : Word), 0x28 ≤ o.toNat → o.toNat % 4 = 0 →
    hostAccess (.regRead o 4) s = .next (s.deliver [0x00, 0x00, 0x00, 0x00]) ∧
    hostAccess (.regWrite o (wordBytes w)) s = .next s

/-- 10_state.md R23, 20_memory.md R58, R51: a read at each of the ten offsets returns the four bytes of its register, least
significant first, and has no side effect: only the model's record of what the Host read changes (LOG 11). -/
def Obligations.RegisterReadsHaveNoSideEffect : Prop :=
  ∀ (s : State) (r : Reg) (o : BitVec 8) (v : Word), (r, o, v) ∈ windowRows s →
    s.readReg r = v ∧ s.readOffset o = v ∧ ∃ b0 b1 b2 b3 : Byte, v = b3 ++ b2 ++ b1 ++ b0 ∧
      hostAccess (.regRead o 4) s = .next { s with hostData := [b0, b1, b2, b3] }

/-- 10_state.md R35: an access that is not 32 bits wide, or not at a multiple of 4, is refused; every other one is made
(60_exceptions.md R233: no bus error). -/
def Obligations.NarrowOrUnalignedAccessIsRefused : Prop :=
  ∀ (s : State) (o : BitVec 8),
    (∀ data : List Byte, (data.length = 4 ∧ o.toNat % 4 = 0) ↔ ∃ t, hostAccess (.regWrite o data) s = .next t) ∧
    (∀ data : List Byte, ¬(data.length = 4 ∧ o.toNat % 4 = 0) → hostAccess (.regWrite o data) s = .refused .windowAccess) ∧
    (∀ width : Nat, (width = 4 ∧ o.toNat % 4 = 0) ↔ ∃ t, hostAccess (.regRead o width) s = .next t) ∧
    (∀ width : Nat, ¬(width = 4 ∧ o.toNat % 4 = 0) → hostAccess (.regRead o width) s = .refused .windowAccess)

/-! ## Host accesses to buffer memory -/

/-- 20_memory.md R50, R60: a Host write that lies in buffer memory and keeps clear of a running command stores its bytes in
address order and changes no other byte and no register. -/
def Obligations.HostWriteStoresItsBytes : Prop :=
  ∀ (s : State) (addr : Word) (data : List Byte),
    (data = [] ∨ addr.toNat + data.length ≤ s.memSize.val) → s.writeHazard ⟨addr.toNat, data.length⟩ = false →
    ∃ t, hostAccess (.memWrite addr data) s = .next t ∧
      (∀ (i : Nat) (h : i < data.length), t.mem.read (addr.toNat + i) = data[i]) ∧
      MemoryKeptOutside s t addr.toNat data.length ∧ (∀ r, t.readReg r = s.readReg r) ∧ t.phase = s.phase ∧
      t.memSize = s.memSize

/-- 70_reset_and_hazards.md R244: while BUSY, a Host write that reaches a byte of the running command's source or destination
extent marks the run faulted; a write to other buffer bytes is allowed; while IDLE every one is. -/
def Obligations.HostWriteToRunningExtentFaults : Prop :=
  ∀ (s : State) (i : Instr) (addr : Word) (data : List Byte),
    (data = [] ∨ addr.toNat + data.length ≤ s.memSize.val) → decode s.cmd = .ok i →
    (hostAccess (.memWrite addr data) s = .fault .hostWroteRunningExtent ↔
      s.phase = .busy ∧ ∃ a, addr.toNat ≤ a ∧ a < addr.toNat + data.length ∧
        ((srcExtent i s).has a = true ∨ s.dstExtent.has a = true)) ∧
    ((∃ t, hostAccess (.memWrite addr data) s = .next t) ↔
      ¬(s.phase = .busy ∧ ∃ a, addr.toNat ≤ a ∧ a < addr.toNat + data.length ∧
        ((srcExtent i s).has a = true ∨ s.dstExtent.has a = true)))

/-- 60_exceptions.md R233: a Host access that reaches a buffer address at or above MEM_SIZE is a platform matter;
that it is refused, as a whole, is the model's choice (LOG 14). -/
def Obligations.HostAccessBeyondMemoryIsRefused : Prop :=
  ∀ (s : State) (addr : Word),
    (∀ data : List Byte, data ≠ [] → s.memSize.val < addr.toNat + data.length →
      hostAccess (.memWrite addr data) s = .refused .bufferAddress) ∧
    (∀ count : Nat, count ≠ 0 → s.memSize.val < addr.toNat + count →
      hostAccess (.memRead addr count) s = .refused .bufferAddress)

/-- 70_reset_and_hazards.md R245: a Host read returns the bytes of buffer memory, but that a byte of the destination extent read
while BUSY is a draw, each with a number of its own (LOG 7, LOG 9); it changes no byte and no register. -/
def Obligations.HostReadReturnsBytesOrDraws : Prop :=
  ∀ (s : State) (addr : Word) (count : Nat), (count = 0 ∨ addr.toNat + count ≤ s.memSize.val) →
    ∃ t, hostAccess (.memRead addr count) s = .next t ∧ t.mem = s.mem ∧ (∀ r, t.readReg r = s.readReg r) ∧
      t.phase = s.phase ∧ t.hostData.length = count ∧
      (s.phase = .idle → t.draws = s.draws) ∧ (s.phase = .busy → t.draws = s.draws + count) ∧
      ∀ (i : Nat) (h : i < t.hostData.length),
        ((s.phase = .idle ∨ s.dstExtent.has (addr.toNat + i) = false) → t.hostData[i] = s.mem.read (addr.toNat + i)) ∧
        ((s.phase = .busy ∧ s.dstExtent.has (addr.toNat + i) = true) → t.hostData[i] = Config.freeByte (s.draws + i))

/-! ## Reset -/

/-- 10_state.md R42: after power-up and reset every register reads 0x00000000 (STATUS with BUSY, DONE, OVERRUN 0 and CODE OK),
every offset reads 0, and the phase is IDLE. What memory holds is left open, a
free value per byte (LOG 6). -/
def Obligations.ResetStateReadsZero : Prop :=
  State.reset.phase = .idle ∧ State.reset.done = false ∧ State.reset.overrun = false ∧ State.reset.code = .ok ∧
    (∀ r, State.reset.readReg r = 0x00000000) ∧ (∀ o, State.reset.readOffset o = 0x00000000) ∧
    ∀ a, State.reset.mem.read a = Config.powerUpByte a

/-- 70_reset_and_hazards.md R240, R241: reset puts every register at its reset value and the phase at IDLE. It does not write
buffer memory, but that a reset while BUSY leaves the destination extent of the abandoned command unspecified, in the model a
draw per byte (LOG 7, LOG 10). The pending inputs are the model's (LOG 1). -/
def Obligations.ResetClearsRegistersAndKeepsMemory : Prop :=
  ∀ (s : State) (rest : List Event), s.agenda = .reset :: rest →
    ∃ t, step s = .next t ∧ t.phase = .idle ∧ (∀ r, t.readReg r = 0x00000000) ∧ t.memSize = s.memSize ∧ t.agenda = rest ∧
      (s.phase = .idle → ∀ a, t.mem.read a = s.mem.read a) ∧
      (s.phase = .busy → ∀ a,
        (¬(s.dstExtent.has a = true ∧ a < s.memSize.val) → t.mem.read a = s.mem.read a) ∧
        ((s.dstExtent.has a = true ∧ a < s.memSize.val) → t.mem.read a = Config.freeByte (s.draws + (a - s.dstAddr.toNat))))

/-! ## Checks and completion codes -/

/-- 20_memory.md R54 and R55: in range exactly when the length is 0 or the exact end is at most MEM_SIZE; two extents overlap
exactly when both are non-empty and they share a byte. -/
def Obligations.ExtentRangeAndOverlap : Prop :=
  (∀ (size : Nat) (e : Extent), e.inRange size = true ↔ e.len = 0 ∨ e.addr + e.len ≤ size) ∧
  (∀ (size : Nat) (e : Extent), e.inRange size = true ↔ ∀ a, e.has a = true → a < size) ∧
  (∀ x y : Extent, x.overlaps y = true ↔ 0 < x.len ∧ 0 < y.len ∧ x.addr < y.addr + y.len ∧ y.addr < x.addr + x.len) ∧
  (∀ x y : Extent, x.overlaps y = true ↔ ∃ a, x.has a = true ∧ y.has a = true)

/-- 60_exceptions.md R223, 00_scope.md R11: every command completes in its one step from every state: phase IDLE, DONE set, and
everything but CODE, RES0, RES1 and buffer memory as before. -/
def Obligations.EveryCommandCompletesInOneStep : Prop :=
  ∀ (i : Instr) (s : State), ∃ t, exec i s = .next t ∧ t.phase = .idle ∧ t.done = true ∧ CommandFrame s t

/-- R221: with a code other than OK no byte of buffer memory is written; with OK exactly the bytes of
`[DST_ADDR, DST_ADDR + output_size)`, which lie inside the destination extent: they hold the command's output, and every other
byte keeps its value. -/
def Obligations.CommandsWriteAllOrNothing : Prop :=
  ∀ (i : Instr) (s : State), ∃ t, exec i s = .next t ∧
    (t.code ≠ .ok → t.mem = s.mem) ∧
    (t.code = .ok → outputSize i s ≤ s.dstCap.toNat ∧ IsOutput i s (fun p => t.mem.read (s.dstAddr.toNat + p)) ∧
      MemoryKeptOutside s t s.dstAddr.toNat (outputSize i s))

/-- R212: a command completes with OK exactly when its operand check S2, its extent checks S3 to S5, its data check S6 and its
size check S7 pass. -/
def Obligations.CommandSucceedsExactlyWhenChecksPass : Prop :=
  ∀ (i : Instr) (s : State), ∃ t, exec i s = .next t ∧
    (t.code = .ok ↔ ExtentsGood i s ∧ DataGood i s ∧ outputSize i s ≤ s.dstCap.toNat)

/-- R214: a source or destination extent out of range gives ADDR_RANGE; of the other checks only S2 comes before it. -/
def Obligations.ExtentOutOfRangeGivesAddrRange : Prop :=
  ∀ (i : Instr) (s : State), (i = .envExpand → 2 ≤ s.arg0.toNat ∧ s.arg0.toNat ≤ 12) →
    ((srcExtent i s).inRange s.memSize.val = false ∨ s.dstExtent.inRange s.memSize.val = false) →
    EndsWith i s .addrRange 0 0

/-- R215: overlapping extents, both in range, give OVERLAP: in-place operation is never possible. -/
def Obligations.OverlappingExtentsGiveOverlap : Prop :=
  ∀ (i : Instr) (s : State), (i = .envExpand → 2 ≤ s.arg0.toNat ∧ s.arg0.toNat ≤ 12) →
    (srcExtent i s).inRange s.memSize.val = true → s.dstExtent.inRange s.memSize.val = true →
    (srcExtent i s).overlaps s.dstExtent = true → EndsWith i s .overlap 0 0

/-- R216: CELL.UNPACK needs a stream byte at an index ≥ L inside cell `k`: TRUNCATED, with L and the number of whole cells. -/
def Obligations.CellUnpackReportsTruncation : Prop :=
  ∀ (s : State) (k : Nat), ExtentsGood .cellUnpack s → k < s.arg0.toNat * s.arg1.toNat →
    cursor (streamByte s) k ≤ s.srcLen.toNat → s.srcLen.toNat < cursor (streamByte s) (k + 1) →
    EndsWith .cellUnpack s .truncated s.srcLen.toNat k

/-- R217: all cells decode with bytes left over: CORRUPT, with the bytes consumed and the number of cells. -/
def Obligations.CellUnpackReportsLeftoverBytes : Prop :=
  ∀ s : State, ExtentsGood .cellUnpack s →
    cursor (streamByte s) (s.arg0.toNat * s.arg1.toNat) < s.srcLen.toNat →
    EndsWith .cellUnpack s .corrupt (cursor (streamByte s) (s.arg0.toNat * s.arg1.toNat)) (s.arg0.toNat * s.arg1.toNat)

/-- R218: a breakpoint count outside 2..12 gives ENV_COUNT before any other check. -/
def Obligations.EnvCountOutsideRangeIsRejected : Prop :=
  ∀ s : State, (s.arg0.toNat < 2 ∨ 12 < s.arg0.toNat) → EndsWith .envExpand s .envCount 0 0

/-- R219: the smallest k with x_{k+1} ≤ x_k gives ENV_ORDER with that k. -/
def Obligations.EnvReportsFirstDisorder : Prop :=
  ∀ (s : State) (k : Nat), 2 ≤ s.arg0.toNat → s.arg0.toNat ≤ 12 → ExtentsGood .envExpand s → k + 1 < s.arg0.toNat →
    pointX s (k + 1) ≤ pointX s k → (∀ j, j < k → pointX s j < pointX s (j + 1)) → EndsWith .envExpand s .envOrder 0 k

/-- R220: an output larger than DST_CAP gives DST_OVERFLOW with the size needed, saturated to 32 bits. -/
def Obligations.OutputBeyondCapacityOverflows : Prop :=
  ∀ (i : Instr) (s : State), ExtentsGood i s → DataGood i s → s.dstCap.toNat < outputSize i s →
    EndsWith i s .dstOverflow (min (outputSize i s) 0xFFFFFFFF) 0

/-! ## What the commands compute -/

/-- 40_pattern_cell.md R103 with R101, R83: when the cells of the stream end exactly at L and fit, every cell record holds the
mask byte and the five fields of its cell. -/
def Obligations.CellUnpackWritesTheDecodedCells : Prop :=
  ∀ s : State, ExtentsGood .cellUnpack s → cursor (streamByte s) (s.arg0.toNat * s.arg1.toNat) = s.srcLen.toNat →
    6 * (s.arg0.toNat * s.arg1.toNat) ≤ s.dstCap.toNat →
    ∃ t, exec .cellUnpack s = .next t ∧ Finished t .ok s.srcLen.toNat (s.arg0.toNat * s.arg1.toNat : Nat) ∧ CommandFrame s t ∧
      MemoryKeptOutside s t s.dstAddr.toNat (6 * (s.arg0.toNat * s.arg1.toNat)) ∧
      ∀ k, k < s.arg0.toNat * s.arg1.toNat →
        t.mem.read (s.dstAddr.toNat + 6 * k) = streamByte s (cursor (streamByte s) k) ∧
        ∀ f, f < 5 → t.mem.read (s.dstAddr.toNat + 6 * k + 1 + f) = fieldByte (streamByte s) (cursor (streamByte s) k) f

/-- R107 with R106: the packed bytes of each cell record, one after another, and their number. -/
def Obligations.CellPackWritesThePackedCells : Prop :=
  ∀ s : State, ExtentsGood .cellPack s → packOffset s (s.arg0.toNat * s.arg1.toNat) ≤ s.dstCap.toNat →
    ∃ t, exec .cellPack s = .next t ∧
      Finished t .ok (packOffset s (s.arg0.toNat * s.arg1.toNat)) (s.arg0.toNat * s.arg1.toNat : Nat) ∧ CommandFrame s t ∧
      MemoryKeptOutside s t s.dstAddr.toNat (packOffset s (s.arg0.toNat * s.arg1.toNat)) ∧
      ∀ k, k < s.arg0.toNat * s.arg1.toNat → ∀ (p : Nat) (h : p < (packCell (sourceCell s k)).length),
        t.mem.read (s.dstAddr.toNat + packOffset s k + p) = (packCell (sourceCell s k))[p]

/-- 41_dpcm.md R145 with R141, R144: the deltas of the narrowed samples, as bytes; the clamp count in RES0, the final carry in
RES1, and OK whatever the count (R150). -/
def Obligations.DpcmEnc8WritesTheDeltas : Prop :=
  ∀ s : State, ExtentsGood .dpcmEnc8 s → s.arg0.toNat ≤ s.dstCap.toNat →
    ∃ (t : State) (d carry : Nat → Int) (err : Nat → Nat),
      EncoderRun 8 s.arg0.toNat (fun i => narrow8 (source16 s i)) d carry err ∧ exec .dpcmEnc8 s = .next t ∧
      Finished t .ok (err (s.arg0.toNat - 1)) (carry (s.arg0.toNat - 1)) ∧ CommandFrame s t ∧
      MemoryKeptOutside s t s.dstAddr.toNat s.arg0.toNat ∧
      ∀ i, i < s.arg0.toNat → t.mem.read (s.dstAddr.toNat + i) = bitsOf 8 (d i)

/-- R146 with R141: the deltas of the samples, as 16-bit elements; RES0, RES1 and the code as in DPCM.ENC8. -/
def Obligations.DpcmEnc16WritesTheDeltas : Prop :=
  ∀ s : State, ExtentsGood .dpcmEnc16 s → 2 * s.arg0.toNat ≤ s.dstCap.toNat →
    ∃ (t : State) (d carry : Nat → Int) (err : Nat → Nat),
      EncoderRun 16 s.arg0.toNat (source16 s) d carry err ∧ exec .dpcmEnc16 s = .next t ∧
      Finished t .ok (err (s.arg0.toNat - 1)) (carry (s.arg0.toNat - 1)) ∧ CommandFrame s t ∧
      MemoryKeptOutside s t s.dstAddr.toNat (2 * s.arg0.toNat) ∧
      ∀ i, i < s.arg0.toNat → t.mem.read16 (s.dstAddr.toNat + 2 * i) = bitsOf 16 (d i)

/-- R147 with R142, R144: the running sums, wrapped in 8 bits and widened, as 16-bit elements. -/
def Obligations.DpcmDec8WritesTheWidenedSums : Prop :=
  ∀ s : State, ExtentsGood .dpcmDec8 s → 2 * s.arg0.toNat ≤ s.dstCap.toNat →
    ∃ (t : State) (q : Nat → Int),
      DecoderRun 8 s.arg0.toNat (source8 s) q ∧ exec .dpcmDec8 s = .next t ∧
      Finished t .ok s.arg0.toNat 0 ∧ CommandFrame s t ∧ MemoryKeptOutside s t s.dstAddr.toNat (2 * s.arg0.toNat) ∧
      ∀ i, i < s.arg0.toNat → t.mem.read16 (s.dstAddr.toNat + 2 * i) = bitsOf 16 (q i * 256)

/-- R148 with R142: the running sums, wrapped in 16 bits, as 16-bit elements. -/
def Obligations.DpcmDec16WritesTheSums : Prop :=
  ∀ s : State, ExtentsGood .dpcmDec16 s → 2 * s.arg0.toNat ≤ s.dstCap.toNat →
    ∃ (t : State) (q : Nat → Int),
      DecoderRun 16 s.arg0.toNat (source16 s) q ∧ exec .dpcmDec16 s = .next t ∧
      Finished t .ok s.arg0.toNat 0 ∧ CommandFrame s t ∧ MemoryKeptOutside s t s.dstAddr.toNat (2 * s.arg0.toNat) ∧
      ∀ i, i < s.arg0.toNat → t.mem.read16 (s.dstAddr.toNat + 2 * i) = bitsOf 16 (q i)

/-- 42_envelope.md R185 with R181, R183, R188: T entries; the entry of tick x_k + j of segment k stands at index
`(x_k - x_0) + k + j` and holds the interpolated value. -/
def Obligations.EnvExpandWritesTheTable : Prop :=
  ∀ s : State, 2 ≤ s.arg0.toNat → s.arg0.toNat ≤ 12 → ExtentsGood .envExpand s → Increasing s →
    2 * tableLength s ≤ s.dstCap.toNat →
    ∃ t, exec .envExpand s = .next t ∧ Finished t .ok (tableLength s) 0 ∧ CommandFrame s t ∧
      MemoryKeptOutside s t s.dstAddr.toNat (2 * tableLength s) ∧
      ∀ k j, k + 1 < s.arg0.toNat → j ≤ pointX s (k + 1) - pointX s k →
        t.mem.read16 (s.dstAddr.toNat + 2 * ((pointX s k - pointX s 0) + k + j)) =
          bitsOf 16 (segmentValue (pointY s k) (pointY s (k + 1)) (pointX s (k + 1) - pointX s k) j)

/-! ## Laws of the codecs -/

/-- 00_scope.md R8 and R9, 41_dpcm.md R144: wrap_N is the representative in [MIN_N, MAX_N] modulo 2^N; asr rounds to the floor,
tdiv toward zero; widen8 and narrow8 stay in their ranges, and narrow8 undoes widen8. -/
def Obligations.ArithmeticPrimitivesAreExact : Prop :=
  (∀ (n : Nat) (v : Int), 0 < n →
    minInt n ≤ wrapInt n v ∧ wrapInt n v ≤ maxInt n ∧ ((2 ^ n : Nat) : Int) ∣ wrapInt n v - v) ∧
  (∀ (a : Int) (k : Nat), asr a k * ((2 ^ k : Nat) : Int) ≤ a ∧ a < (asr a k + 1) * ((2 ^ k : Nat) : Int)) ∧
  (∀ a b : Int, b ≠ 0 → |tdiv a b * b| ≤ |a| ∧ |a - tdiv a b * b| < |b|) ∧
  (∀ a b : Int, b ≠ 0 → 0 ≤ a * b → 0 ≤ tdiv a b) ∧ (∀ a b : Int, b ≠ 0 → a * b ≤ 0 → tdiv a b ≤ 0) ∧
  (∀ v : Int, InWidth 8 v → narrow8 (widen8 v) = v ∧ -32768 ≤ widen8 v ∧ widen8 v ≤ 32512) ∧
  (∀ v : Int, InWidth 16 v → InWidth 8 (narrow8 v) ∧ 256 * narrow8 v ≤ v ∧ v < 256 * narrow8 v + 256)

/-- 40_pattern_cell.md R104, R105: the legacy form is the note and four zero bytes; the compressed form is 2 to 6 bytes, a mask
with bit 7 set, bits 6:5 clear, some bit of 4:1 set and bit k set exactly when field k is not 0, then the non-zero fields in
order. The stored mask is never read. So `n` cells pack to between `2·n` and `6·n` bytes. -/
def Obligations.PackedCellForms : Prop :=
  ∀ c : Cell,
    ((c.instrument = 0 ∧ c.volume = 0 ∧ c.fxtype = 0 ∧ c.fxparam = 0) → packCell c = [c.note, 0x00, 0x00, 0x00, 0x00]) ∧
    (¬(c.instrument = 0 ∧ c.volume = 0 ∧ c.fxtype = 0 ∧ c.fxparam = 0) →
      ∃ m tail, packCell c = m :: tail ∧ 1 ≤ tail.length ∧ tail.length ≤ 5 ∧ tail.length = bitsBelow m 5 ∧
        m.getLsbD 7 = true ∧ m.getLsbD 6 = false ∧ m.getLsbD 5 = false ∧ 0x82 ≤ m.toNat ∧
        (m.getLsbD 0 = true ↔ c.note ≠ 0) ∧ (m.getLsbD 1 = true ↔ c.instrument ≠ 0) ∧ (m.getLsbD 2 = true ↔ c.volume ≠ 0) ∧
        (m.getLsbD 3 = true ↔ c.fxtype ≠ 0) ∧ (m.getLsbD 4 = true ↔ c.fxparam ≠ 0) ∧
        tail = [c.note, c.instrument, c.volume, c.fxtype, c.fxparam].filter (fun f => decide (f ≠ 0))) ∧
    (∀ m, packCell { c with mask := m } = packCell c) ∧
    ∀ (s : State) (n : Nat), 2 * n ≤ packOffset s n ∧ packOffset s n ≤ 6 * n

/-- R109, one cell: the packed bytes of a cell whose note is at most 0x7F or that has a non-zero other field unpack to a cell
with the same five fields, the first packed byte as its mask, and nothing left over. -/
def Obligations.PackedCellUnpacksToItsFields : Prop :=
  ∀ (c : Cell) (rest : List Byte), RoundTrips c →
    ∃ d, unpackCell (packCell c ++ rest) = some (d, rest) ∧ SameFields d c ∧ (packCell c).head? = some d.mask

/-- R110: a cell with note ≥ 0x80 and every other field 0 packs in the legacy form and never unpacks to that note. -/
def Obligations.HighNoteLegacyCellIsLost : Prop :=
  ∀ c : Cell, 0x80 ≤ c.note.toNat → c.instrument = 0 → c.volume = 0 → c.fxtype = 0 → c.fxparam = 0 →
    packCell c = [c.note, 0x00, 0x00, 0x00, 0x00] ∧
    ∀ d rest, unpackCell (packCell c) = some (d, rest) → d.note ≠ c.note ∧ d.mask = c.note

/-- R109, a whole matrix: CELL.UNPACK of the output of CELL.PACK, with L = P, completes OK and gives back every non-mask field.
`t` is the state after the pack; `u` is any state with the same buffer bytes whose registers ask for the unpack. -/
def Obligations.PackThenUnpackGivesTheFieldsBack : Prop :=
  ∀ s t u : State, exec .cellPack s = .next t → t.code = .ok →
    (∀ k, k < s.arg0.toNat * s.arg1.toNat → RoundTrips (sourceCell s k)) →
    (∀ a, u.mem.read a = t.mem.read a) → u.srcAddr = s.dstAddr → u.srcLen = t.res0 → u.arg0 = s.arg0 → u.arg1 = s.arg1 →
    ExtentsGood .cellUnpack u → 6 * (s.arg0.toNat * s.arg1.toNat) ≤ u.dstCap.toNat →
    ∃ v, exec .cellUnpack u = .next v ∧ Finished v .ok t.res0.toNat (s.arg0.toNat * s.arg1.toNat : Nat) ∧
      ∀ k, k < s.arg0.toNat * s.arg1.toNat → SameFields (cellAt v.mem (u.dstAddr.toNat + 6 * k)) (sourceCell s k)

/-- R143, the closed loop: for samples in range, the decoded value is the sample less the carry, the decoder's wrap changes
nothing, each delta is the clamped step from the decoded value, and the bounds hold. -/
def Obligations.DpcmEncoderIsClosedLoop : Prop :=
  ∀ (N : Nat) (p : List Int), (N = 8 ∨ N = 16) → (∀ v ∈ p, InWidth N v) →
    let d := (dpcmEncode N p).deltas
    let q := dpcmDecode N d
    d.length = p.length ∧ q.length = p.length ∧
    (∀ i, i < p.length → q[i]! = p[i]! - carryAfter N p i ∧ InWidth N q[i]! ∧ InWidth N d[i]! ∧
      |carryAfter N p i| ≤ ((2 ^ N : Nat) : Int) - 1) ∧
    ∀ i, i + 1 < p.length → q[i + 1]! = q[i]! + d[i + 1]! ∧ d[i + 1]! = clampInt (p[i + 1]! - q[i]!) (minInt N) (maxInt N)

/-- R149: the error count is 0 exactly when every step is in range, and then decoding gives the samples back; decoding
always gives the sample less the carry, so it differs exactly where the carry is not 0. -/
def Obligations.DpcmLosslessExactlyWithoutClamps : Prop :=
  ∀ (N : Nat) (p : List Int), (N = 8 ∨ N = 16) → (∀ v ∈ p, InWidth N v) →
    ((dpcmEncode N p).errors = 0 ↔ ∀ i, i + 1 < p.length → InWidth N (p[i + 1]! - p[i]!)) ∧
    ((dpcmEncode N p).errors = 0 → dpcmDecode N (dpcmEncode N p).deltas = p) ∧
    (dpcmEncode N p).errors ≤ p.length - 1 ∧
    ∀ i, i < p.length → ((dpcmDecode N (dpcmEncode N p).deltas)[i]! ≠ p[i]! ↔ carryAfter N p i ≠ 0)

/-- R149, the commands: DPCM.DEC16 of the output of DPCM.ENC16 returns the input samples when the error count was 0. -/
def Obligations.Dec16AfterEnc16ReturnsTheSamples : Prop :=
  ∀ s t u : State, exec .dpcmEnc16 s = .next t → t.code = .ok → t.res0 = 0 →
    (∀ a, u.mem.read a = t.mem.read a) → u.srcAddr = s.dstAddr → u.arg0 = s.arg0 →
    ExtentsGood .dpcmDec16 u → 2 * s.arg0.toNat ≤ u.dstCap.toNat →
    ∃ v, exec .dpcmDec16 u = .next v ∧ Finished v .ok s.arg0.toNat 0 ∧
      ∀ i, i < s.arg0.toNat → v.mem.read16 (u.dstAddr.toNat + 2 * i) = s.mem.read16 (s.srcAddr.toNat + 2 * i)

/-- R149, the commands: DPCM.DEC8 of the output of DPCM.ENC8 returns each input sample with its low byte cleared when the error
count was 0. -/
def Obligations.Dec8AfterEnc8ClearsTheLowBytes : Prop :=
  ∀ s t u : State, exec .dpcmEnc8 s = .next t → t.code = .ok → t.res0 = 0 →
    (∀ a, u.mem.read a = t.mem.read a) → u.srcAddr = s.dstAddr → u.arg0 = s.arg0 →
    ExtentsGood .dpcmDec8 u → 2 * s.arg0.toNat ≤ u.dstCap.toNat →
    ∃ v, exec .dpcmDec8 u = .next v ∧ Finished v .ok s.arg0.toNat 0 ∧
      ∀ i, i < s.arg0.toNat →
        v.mem.read (u.dstAddr.toNat + 2 * i) = 0x00 ∧
        v.mem.read (u.dstAddr.toNat + 2 * i + 1) = s.mem.read (s.srcAddr.toNat + 2 * i + 1)

/-- 42_envelope.md R183: the table of a strictly increasing list has `(x_last - x_0) + (count - 1)` entries; with 2 to 12 points
of 16 bits that is between `2·(count - 1)` and 65546. -/
def Obligations.EnvTableLength : Prop :=
  ∀ pts : List Breakpoint, 2 ≤ pts.length → pts.length ≤ 12 → (∀ p ∈ pts, p.x < 65536) → pts.Pairwise (fun p q => p.x < q.x) →
    (envTable pts).length = ((pts.getLastD ⟨0, 0⟩).x - (pts.headD ⟨0, 0⟩).x) + (pts.length - 1) ∧
    2 * (pts.length - 1) ≤ (envTable pts).length ∧ (envTable pts).length ≤ 65546

/-- R186: every value of a segment lies between its two breakpoint values, so it fits an unsigned 16-bit word. -/
def Obligations.EnvValuesStayBetweenBreakpoints : Prop :=
  ∀ p q : Breakpoint, p.x < q.x → p.y < 65536 → q.y < 65536 → ∀ v ∈ segment p q,
    (min p.y q.y : Int) ≤ v ∧ v ≤ (max p.y q.y : Int) ∧ 0 ≤ v ∧ v < 65536

/-- R187: a segment begins at y0 and ends at y1, or at y1 - 1 when it ascends and `dy·2^16` is no multiple of its length. -/
def Obligations.EnvSegmentEndValue : Prop :=
  ∀ p q : Breakpoint, p.x < q.x → q.x < 65536 → p.y < 65536 → q.y < 65536 →
    (segment p q).head? = some (p.y : Int) ∧
    (q.y ≤ p.y → (segment p q).getLast? = some (q.y : Int)) ∧
    (p.y < q.y → (q.y - p.y) * 65536 % (q.x - p.x) = 0 → (segment p q).getLast? = some (q.y : Int)) ∧
    (p.y < q.y → (q.y - p.y) * 65536 % (q.x - p.x) ≠ 0 → (segment p q).getLast? = some ((q.y : Int) - 1))

/-- R182: the value at a shared breakpoint is written twice: after ENV.EXPAND completes OK, the entry before the second copy
is y_k or y_k - 1 and the second copy is y_k. -/
def Obligations.EnvBoundaryIsWrittenTwice : Prop :=
  ∀ s t : State, exec .envExpand s = .next t → t.code = .ok → ∀ k, 0 < k → k + 1 < s.arg0.toNat →
    (t.mem.read16 (s.dstAddr.toNat + 2 * ((pointX s k - pointX s 0) + k))).toNat = pointY s k ∧
    ((t.mem.read16 (s.dstAddr.toNat + 2 * ((pointX s k - pointX s 0) + k - 1))).toNat = pointY s k ∨
      (t.mem.read16 (s.dstAddr.toNat + 2 * ((pointX s k - pointX s 0) + k - 1))).toNat + 1 = pointY s k)

/-! ## The whole machine -/

/-- The invariant holds after reset. -/
def Obligations.ResetSatisfiesInvariant : Prop := State.reset.Inv

/-- Every step keeps the invariant: canonical buffer memory, no byte at or above MEM_SIZE, and DONE = 0 while BUSY (R25); and
MEM_SIZE, a parameter (00_scope.md R5), stays what it is. -/
def Obligations.EveryStepKeepsInvariant : Prop := ∀ s t : State, s.Inv → step s = .next t → t.Inv ∧ t.memSize = s.memSize

/-- 10_state.md R37, R40: while a command runs CMD and its operand registers cannot change: a step that ends BUSY leaves them,
RES0, RES1 and CODE as they were (R246). -/
def Obligations.OperandsAreLatchedWhileBusy : Prop :=
  ∀ s t : State, s.phase = .busy → step s = .next t → t.phase = .busy →
    OperandsKept s t ∧ t.res0 = s.res0 ∧ t.res1 = s.res1 ∧ t.code = s.code

/-- R36, R246: BUSY is left only by the Unit's completion, which sets DONE, or by reset; it is entered only by a Host write to
CMD. Who moves is read from the model's pending inputs (LOG 1). -/
def Obligations.PhaseChangesOnlyByStartCompletionOrReset : Prop :=
  ∀ s t : State, step s = .next t →
    (s.phase = .busy → t.phase = .idle → (nextMove s).1 = .reset ∨ ((nextMove s).1 = .unit ∧ t.done = true)) ∧
    (s.phase = .idle → t.phase = .busy → t.done = false ∧ ∃ data, (nextMove s).1 = .host (.regWrite 0x00 data))

/-- 60_exceptions.md R215, R221: no command changes a byte of its own source extent. -/
def Obligations.NoCommandWritesItsSource : Prop :=
  ∀ (i : Instr) (s t : State), exec i s = .next t → ∀ a, (srcExtent i s).has a = true → t.mem.read a = s.mem.read a

/-- 70_reset_and_hazards.md R243: the effect of a command depends only on the latched registers and on the bytes of its source
extent (and, for the bytes it does not write, on what they held). -/
def Obligations.CompletionDependsOnlyOnItsInputs : Prop :=
  ∀ (i : Instr) (s s' t t' : State), SameInputs i s s' → exec i s = .next t → exec i s' = .next t' →
    SameCompletion i s t t' ∧ ∀ a, s'.mem.read a = s.mem.read a → t'.mem.read a = t.mem.read a

/-- R243: the completion is the same whichever Host step came between, so long as it keeps R244: a Host access that does not
fault or stop, made while the command runs, changes neither its code, its results nor its output. -/
def Obligations.HostStepsDoNotChangeTheCompletion : Prop :=
  ∀ (i : Instr) (a : HostAction) (s s' t : State), s.phase = .busy → decode s.cmd = .ok i → hostAccess a s = .next s' →
    exec i s = .next t → ∃ t', s'.phase = .busy ∧ decode s'.cmd = .ok i ∧ exec i s' = .next t' ∧ SameCompletion i s t t'

/-- R244, R245: a step stops only when the Host breaks its duty: from a state in which its next access is one the spec gives
a meaning, the machine goes on. What stops it is named in LOG 14; who moves is LOG 1. -/
def Obligations.MachineStopsOnlyOnHostBreach : Prop := ∀ s : State, HostKeepsDuty s ↔ SafeStep s

/-- 00_scope.md R6, 70_reset_and_hazards.md R243, R240, 60_exceptions.md R213, R223, R232: a step is the move of the agent whose
turn it is. A Host turn is its access; a reset turn is reset; the Unit's turn while IDLE changes only the pending inputs, and
while BUSY with an illegal word it completes with BAD_OP; a WAIT while IDLE is a read of STATUS. Whose turn it is is read from
the model's pending inputs (LOG 1, LOG 12). -/
def Obligations.StepIsTheMoveOfTheAgentWhoseTurnItIs : Prop :=
  ∀ (s : State) (rest : List Event),
    (∀ a, s.agenda = .host a :: rest → step s = hostAccess a (s.withAgenda rest)) ∧
    (s.agenda = .reset :: rest → step s = .next (applyReset (s.withAgenda rest))) ∧
    (s.phase = .idle →
      (s.agenda = [] → step s = .next s) ∧
      (s.agenda = .unit :: rest → step s = .next { s with agenda := rest }) ∧
      (s.agenda = .wait :: rest → step s = hostAccess (.regRead 0x04 4) (s.withAgenda rest))) ∧
    (∀ e, s.phase = .busy → decode s.cmd = .error e →
      (s.agenda = [] → step s = .next { s with phase := .idle, done := true, code := .badOp, res0 := 0, res1 := 0 }) ∧
      (s.agenda = .unit :: rest → step s = .next { s with agenda := rest, phase := .idle, done := true, code := .badOp, res0 := 0, res1 := 0 }) ∧
      (s.agenda = .wait :: rest → step s = .next { s with phase := .idle, done := true, code := .badOp, res0 := 0, res1 := 0 }))
end

