-- ==== Sys2Proof/Laws/State.lean ====
section
/-! SUPPORT. Laws/State.lean: what each named update of the state does to each field. -/

namespace Sys2Proof.Machine

variable (s : State)

@[simp] theorem State.withMem_phase (m : Memory) : (s.withMem m).phase = s.phase := rfl
@[simp] theorem State.withMem_cmd (m : Memory) : (s.withMem m).cmd = s.cmd := rfl
@[simp] theorem State.withMem_done (m : Memory) : (s.withMem m).done = s.done := rfl
@[simp] theorem State.withMem_overrun (m : Memory) : (s.withMem m).overrun = s.overrun := rfl
@[simp] theorem State.withMem_code (m : Memory) : (s.withMem m).code = s.code := rfl
@[simp] theorem State.withMem_srcAddr (m : Memory) : (s.withMem m).srcAddr = s.srcAddr := rfl
@[simp] theorem State.withMem_srcLen (m : Memory) : (s.withMem m).srcLen = s.srcLen := rfl
@[simp] theorem State.withMem_dstAddr (m : Memory) : (s.withMem m).dstAddr = s.dstAddr := rfl
@[simp] theorem State.withMem_dstCap (m : Memory) : (s.withMem m).dstCap = s.dstCap := rfl
@[simp] theorem State.withMem_arg0 (m : Memory) : (s.withMem m).arg0 = s.arg0 := rfl
@[simp] theorem State.withMem_arg1 (m : Memory) : (s.withMem m).arg1 = s.arg1 := rfl
@[simp] theorem State.withMem_res0 (m : Memory) : (s.withMem m).res0 = s.res0 := rfl
@[simp] theorem State.withMem_res1 (m : Memory) : (s.withMem m).res1 = s.res1 := rfl
@[simp] theorem State.withMem_mem (m : Memory) : (s.withMem m).mem = m := rfl
@[simp] theorem State.withMem_memSize (m : Memory) : (s.withMem m).memSize = s.memSize := rfl
@[simp] theorem State.withMem_agenda (m : Memory) : (s.withMem m).agenda = s.agenda := rfl
@[simp] theorem State.withMem_hostData (m : Memory) : (s.withMem m).hostData = s.hostData := rfl
@[simp] theorem State.withMem_draws (m : Memory) : (s.withMem m).draws = s.draws := rfl

@[simp] theorem State.withAgenda_phase (es : List Event) : (s.withAgenda es).phase = s.phase := rfl
@[simp] theorem State.withAgenda_cmd (es : List Event) : (s.withAgenda es).cmd = s.cmd := rfl
@[simp] theorem State.withAgenda_done (es : List Event) : (s.withAgenda es).done = s.done := rfl
@[simp] theorem State.withAgenda_overrun (es : List Event) : (s.withAgenda es).overrun = s.overrun := rfl
@[simp] theorem State.withAgenda_code (es : List Event) : (s.withAgenda es).code = s.code := rfl
@[simp] theorem State.withAgenda_srcAddr (es : List Event) : (s.withAgenda es).srcAddr = s.srcAddr := rfl
@[simp] theorem State.withAgenda_srcLen (es : List Event) : (s.withAgenda es).srcLen = s.srcLen := rfl
@[simp] theorem State.withAgenda_dstAddr (es : List Event) : (s.withAgenda es).dstAddr = s.dstAddr := rfl
@[simp] theorem State.withAgenda_dstCap (es : List Event) : (s.withAgenda es).dstCap = s.dstCap := rfl
@[simp] theorem State.withAgenda_arg0 (es : List Event) : (s.withAgenda es).arg0 = s.arg0 := rfl
@[simp] theorem State.withAgenda_arg1 (es : List Event) : (s.withAgenda es).arg1 = s.arg1 := rfl
@[simp] theorem State.withAgenda_res0 (es : List Event) : (s.withAgenda es).res0 = s.res0 := rfl
@[simp] theorem State.withAgenda_res1 (es : List Event) : (s.withAgenda es).res1 = s.res1 := rfl
@[simp] theorem State.withAgenda_mem (es : List Event) : (s.withAgenda es).mem = s.mem := rfl
@[simp] theorem State.withAgenda_memSize (es : List Event) : (s.withAgenda es).memSize = s.memSize := rfl
@[simp] theorem State.withAgenda_agenda (es : List Event) : (s.withAgenda es).agenda = es := rfl
@[simp] theorem State.withAgenda_hostData (es : List Event) : (s.withAgenda es).hostData = s.hostData := rfl
@[simp] theorem State.withAgenda_draws (es : List Event) : (s.withAgenda es).draws = s.draws := rfl

@[simp] theorem State.deliver_phase (bs : List Byte) : (s.deliver bs).phase = s.phase := rfl
@[simp] theorem State.deliver_cmd (bs : List Byte) : (s.deliver bs).cmd = s.cmd := rfl
@[simp] theorem State.deliver_done (bs : List Byte) : (s.deliver bs).done = s.done := rfl
@[simp] theorem State.deliver_overrun (bs : List Byte) : (s.deliver bs).overrun = s.overrun := rfl
@[simp] theorem State.deliver_code (bs : List Byte) : (s.deliver bs).code = s.code := rfl
@[simp] theorem State.deliver_srcAddr (bs : List Byte) : (s.deliver bs).srcAddr = s.srcAddr := rfl
@[simp] theorem State.deliver_srcLen (bs : List Byte) : (s.deliver bs).srcLen = s.srcLen := rfl
@[simp] theorem State.deliver_dstAddr (bs : List Byte) : (s.deliver bs).dstAddr = s.dstAddr := rfl
@[simp] theorem State.deliver_dstCap (bs : List Byte) : (s.deliver bs).dstCap = s.dstCap := rfl
@[simp] theorem State.deliver_arg0 (bs : List Byte) : (s.deliver bs).arg0 = s.arg0 := rfl
@[simp] theorem State.deliver_arg1 (bs : List Byte) : (s.deliver bs).arg1 = s.arg1 := rfl
@[simp] theorem State.deliver_res0 (bs : List Byte) : (s.deliver bs).res0 = s.res0 := rfl
@[simp] theorem State.deliver_res1 (bs : List Byte) : (s.deliver bs).res1 = s.res1 := rfl
@[simp] theorem State.deliver_mem (bs : List Byte) : (s.deliver bs).mem = s.mem := rfl
@[simp] theorem State.deliver_memSize (bs : List Byte) : (s.deliver bs).memSize = s.memSize := rfl
@[simp] theorem State.deliver_agenda (bs : List Byte) : (s.deliver bs).agenda = s.agenda := rfl
@[simp] theorem State.deliver_hostData (bs : List Byte) : (s.deliver bs).hostData = bs := rfl
@[simp] theorem State.deliver_draws (bs : List Byte) : (s.deliver bs).draws = s.draws := rfl

@[simp] theorem State.drawn_phase (n : Nat) : (s.drawn n).phase = s.phase := rfl
@[simp] theorem State.drawn_cmd (n : Nat) : (s.drawn n).cmd = s.cmd := rfl
@[simp] theorem State.drawn_done (n : Nat) : (s.drawn n).done = s.done := rfl
@[simp] theorem State.drawn_overrun (n : Nat) : (s.drawn n).overrun = s.overrun := rfl
@[simp] theorem State.drawn_code (n : Nat) : (s.drawn n).code = s.code := rfl
@[simp] theorem State.drawn_srcAddr (n : Nat) : (s.drawn n).srcAddr = s.srcAddr := rfl
@[simp] theorem State.drawn_srcLen (n : Nat) : (s.drawn n).srcLen = s.srcLen := rfl
@[simp] theorem State.drawn_dstAddr (n : Nat) : (s.drawn n).dstAddr = s.dstAddr := rfl
@[simp] theorem State.drawn_dstCap (n : Nat) : (s.drawn n).dstCap = s.dstCap := rfl
@[simp] theorem State.drawn_arg0 (n : Nat) : (s.drawn n).arg0 = s.arg0 := rfl
@[simp] theorem State.drawn_arg1 (n : Nat) : (s.drawn n).arg1 = s.arg1 := rfl
@[simp] theorem State.drawn_res0 (n : Nat) : (s.drawn n).res0 = s.res0 := rfl
@[simp] theorem State.drawn_res1 (n : Nat) : (s.drawn n).res1 = s.res1 := rfl
@[simp] theorem State.drawn_mem (n : Nat) : (s.drawn n).mem = s.mem := rfl
@[simp] theorem State.drawn_memSize (n : Nat) : (s.drawn n).memSize = s.memSize := rfl
@[simp] theorem State.drawn_agenda (n : Nat) : (s.drawn n).agenda = s.agenda := rfl
@[simp] theorem State.drawn_hostData (n : Nat) : (s.drawn n).hostData = s.hostData := rfl
@[simp] theorem State.drawn_draws (n : Nat) : (s.drawn n).draws = s.draws + n := rfl

@[simp] theorem State.clearFlags_phase (v : Word) : (s.clearFlags v).phase = s.phase := rfl
@[simp] theorem State.clearFlags_cmd (v : Word) : (s.clearFlags v).cmd = s.cmd := rfl
@[simp] theorem State.clearFlags_done (v : Word) : (s.clearFlags v).done = (s.done && !v.getLsbD 1) := rfl
@[simp] theorem State.clearFlags_overrun (v : Word) : (s.clearFlags v).overrun = (s.overrun && !v.getLsbD 2) := rfl
@[simp] theorem State.clearFlags_code (v : Word) : (s.clearFlags v).code = s.code := rfl
@[simp] theorem State.clearFlags_srcAddr (v : Word) : (s.clearFlags v).srcAddr = s.srcAddr := rfl
@[simp] theorem State.clearFlags_srcLen (v : Word) : (s.clearFlags v).srcLen = s.srcLen := rfl
@[simp] theorem State.clearFlags_dstAddr (v : Word) : (s.clearFlags v).dstAddr = s.dstAddr := rfl
@[simp] theorem State.clearFlags_dstCap (v : Word) : (s.clearFlags v).dstCap = s.dstCap := rfl
@[simp] theorem State.clearFlags_arg0 (v : Word) : (s.clearFlags v).arg0 = s.arg0 := rfl
@[simp] theorem State.clearFlags_arg1 (v : Word) : (s.clearFlags v).arg1 = s.arg1 := rfl
@[simp] theorem State.clearFlags_res0 (v : Word) : (s.clearFlags v).res0 = s.res0 := rfl
@[simp] theorem State.clearFlags_res1 (v : Word) : (s.clearFlags v).res1 = s.res1 := rfl
@[simp] theorem State.clearFlags_mem (v : Word) : (s.clearFlags v).mem = s.mem := rfl
@[simp] theorem State.clearFlags_memSize (v : Word) : (s.clearFlags v).memSize = s.memSize := rfl
@[simp] theorem State.clearFlags_agenda (v : Word) : (s.clearFlags v).agenda = s.agenda := rfl
@[simp] theorem State.clearFlags_hostData (v : Word) : (s.clearFlags v).hostData = s.hostData := rfl
@[simp] theorem State.clearFlags_draws (v : Word) : (s.clearFlags v).draws = s.draws := rfl

@[simp] theorem State.markOverrun_phase : (s.markOverrun).phase = s.phase := rfl
@[simp] theorem State.markOverrun_cmd : (s.markOverrun).cmd = s.cmd := rfl
@[simp] theorem State.markOverrun_done : (s.markOverrun).done = s.done := rfl
@[simp] theorem State.markOverrun_overrun : (s.markOverrun).overrun = true := rfl
@[simp] theorem State.markOverrun_code : (s.markOverrun).code = s.code := rfl
@[simp] theorem State.markOverrun_srcAddr : (s.markOverrun).srcAddr = s.srcAddr := rfl
@[simp] theorem State.markOverrun_srcLen : (s.markOverrun).srcLen = s.srcLen := rfl
@[simp] theorem State.markOverrun_dstAddr : (s.markOverrun).dstAddr = s.dstAddr := rfl
@[simp] theorem State.markOverrun_dstCap : (s.markOverrun).dstCap = s.dstCap := rfl
@[simp] theorem State.markOverrun_arg0 : (s.markOverrun).arg0 = s.arg0 := rfl
@[simp] theorem State.markOverrun_arg1 : (s.markOverrun).arg1 = s.arg1 := rfl
@[simp] theorem State.markOverrun_res0 : (s.markOverrun).res0 = s.res0 := rfl
@[simp] theorem State.markOverrun_res1 : (s.markOverrun).res1 = s.res1 := rfl
@[simp] theorem State.markOverrun_mem : (s.markOverrun).mem = s.mem := rfl
@[simp] theorem State.markOverrun_memSize : (s.markOverrun).memSize = s.memSize := rfl
@[simp] theorem State.markOverrun_agenda : (s.markOverrun).agenda = s.agenda := rfl
@[simp] theorem State.markOverrun_hostData : (s.markOverrun).hostData = s.hostData := rfl
@[simp] theorem State.markOverrun_draws : (s.markOverrun).draws = s.draws := rfl

@[simp] theorem State.start_phase (v : Word) : (s.start v).phase = .busy := rfl
@[simp] theorem State.start_cmd (v : Word) : (s.start v).cmd = v := rfl
@[simp] theorem State.start_done (v : Word) : (s.start v).done = false := rfl
@[simp] theorem State.start_overrun (v : Word) : (s.start v).overrun = s.overrun := rfl
@[simp] theorem State.start_code (v : Word) : (s.start v).code = s.code := rfl
@[simp] theorem State.start_srcAddr (v : Word) : (s.start v).srcAddr = s.srcAddr := rfl
@[simp] theorem State.start_srcLen (v : Word) : (s.start v).srcLen = s.srcLen := rfl
@[simp] theorem State.start_dstAddr (v : Word) : (s.start v).dstAddr = s.dstAddr := rfl
@[simp] theorem State.start_dstCap (v : Word) : (s.start v).dstCap = s.dstCap := rfl
@[simp] theorem State.start_arg0 (v : Word) : (s.start v).arg0 = s.arg0 := rfl
@[simp] theorem State.start_arg1 (v : Word) : (s.start v).arg1 = s.arg1 := rfl
@[simp] theorem State.start_res0 (v : Word) : (s.start v).res0 = s.res0 := rfl
@[simp] theorem State.start_res1 (v : Word) : (s.start v).res1 = s.res1 := rfl
@[simp] theorem State.start_mem (v : Word) : (s.start v).mem = s.mem := rfl
@[simp] theorem State.start_memSize (v : Word) : (s.start v).memSize = s.memSize := rfl
@[simp] theorem State.start_agenda (v : Word) : (s.start v).agenda = s.agenda := rfl
@[simp] theorem State.start_hostData (v : Word) : (s.start v).hostData = s.hostData := rfl
@[simp] theorem State.start_draws (v : Word) : (s.start v).draws = s.draws := rfl

@[simp] theorem State.clearRegs_phase : (s.clearRegs).phase = .idle := rfl
@[simp] theorem State.clearRegs_cmd : (s.clearRegs).cmd = 0 := rfl
@[simp] theorem State.clearRegs_done : (s.clearRegs).done = false := rfl
@[simp] theorem State.clearRegs_overrun : (s.clearRegs).overrun = false := rfl
@[simp] theorem State.clearRegs_code : (s.clearRegs).code = .ok := rfl
@[simp] theorem State.clearRegs_srcAddr : (s.clearRegs).srcAddr = 0 := rfl
@[simp] theorem State.clearRegs_srcLen : (s.clearRegs).srcLen = 0 := rfl
@[simp] theorem State.clearRegs_dstAddr : (s.clearRegs).dstAddr = 0 := rfl
@[simp] theorem State.clearRegs_dstCap : (s.clearRegs).dstCap = 0 := rfl
@[simp] theorem State.clearRegs_arg0 : (s.clearRegs).arg0 = 0 := rfl
@[simp] theorem State.clearRegs_arg1 : (s.clearRegs).arg1 = 0 := rfl
@[simp] theorem State.clearRegs_res0 : (s.clearRegs).res0 = 0 := rfl
@[simp] theorem State.clearRegs_res1 : (s.clearRegs).res1 = 0 := rfl
@[simp] theorem State.clearRegs_mem : (s.clearRegs).mem = s.mem := rfl
@[simp] theorem State.clearRegs_memSize : (s.clearRegs).memSize = s.memSize := rfl
@[simp] theorem State.clearRegs_agenda : (s.clearRegs).agenda = s.agenda := rfl
@[simp] theorem State.clearRegs_hostData : (s.clearRegs).hostData = s.hostData := rfl
@[simp] theorem State.clearRegs_draws : (s.clearRegs).draws = s.draws := rfl

@[simp] theorem finish_phase (c : Code) (r0 : Nat) (r1 : Int) : (finish c r0 r1 s).phase = .idle := rfl
@[simp] theorem finish_cmd (c : Code) (r0 : Nat) (r1 : Int) : (finish c r0 r1 s).cmd = s.cmd := rfl
@[simp] theorem finish_done (c : Code) (r0 : Nat) (r1 : Int) : (finish c r0 r1 s).done = true := rfl
@[simp] theorem finish_overrun (c : Code) (r0 : Nat) (r1 : Int) : (finish c r0 r1 s).overrun = s.overrun := rfl
@[simp] theorem finish_code (c : Code) (r0 : Nat) (r1 : Int) : (finish c r0 r1 s).code = c := rfl
@[simp] theorem finish_srcAddr (c : Code) (r0 : Nat) (r1 : Int) : (finish c r0 r1 s).srcAddr = s.srcAddr := rfl
@[simp] theorem finish_srcLen (c : Code) (r0 : Nat) (r1 : Int) : (finish c r0 r1 s).srcLen = s.srcLen := rfl
@[simp] theorem finish_dstAddr (c : Code) (r0 : Nat) (r1 : Int) : (finish c r0 r1 s).dstAddr = s.dstAddr := rfl
@[simp] theorem finish_dstCap (c : Code) (r0 : Nat) (r1 : Int) : (finish c r0 r1 s).dstCap = s.dstCap := rfl
@[simp] theorem finish_arg0 (c : Code) (r0 : Nat) (r1 : Int) : (finish c r0 r1 s).arg0 = s.arg0 := rfl
@[simp] theorem finish_arg1 (c : Code) (r0 : Nat) (r1 : Int) : (finish c r0 r1 s).arg1 = s.arg1 := rfl
@[simp] theorem finish_res0 (c : Code) (r0 : Nat) (r1 : Int) : (finish c r0 r1 s).res0 = BitVec.ofNat 32 r0 := rfl
@[simp] theorem finish_res1 (c : Code) (r0 : Nat) (r1 : Int) : (finish c r0 r1 s).res1 = bitsOf 32 r1 := rfl
@[simp] theorem finish_mem (c : Code) (r0 : Nat) (r1 : Int) : (finish c r0 r1 s).mem = s.mem := rfl
@[simp] theorem finish_memSize (c : Code) (r0 : Nat) (r1 : Int) : (finish c r0 r1 s).memSize = s.memSize := rfl
@[simp] theorem finish_agenda (c : Code) (r0 : Nat) (r1 : Int) : (finish c r0 r1 s).agenda = s.agenda := rfl
@[simp] theorem finish_hostData (c : Code) (r0 : Nat) (r1 : Int) : (finish c r0 r1 s).hostData = s.hostData := rfl
@[simp] theorem finish_draws (c : Code) (r0 : Nat) (r1 : Int) : (finish c r0 r1 s).draws = s.draws := rfl

end Sys2Proof.Machine
end

