-- ==== Sys2Proof/Laws/Memory.lean ====
section
/-! SUPPORT. Laws/Memory.lean: reading after writing, and the canonical form of buffer memory. -/

namespace Sys2Proof.Machine

/-! Reading after writing. -/

theorem Memory.get?_write (m : Memory) (a b : Nat) (v : Byte) :
    (m.write a v).get? b = if b = a then some v else m.get? b := by
  induction m with
  | nil => simp only [Memory.write, Memory.get?]; grind
  | cons c rest ih =>
    obtain ⟨k, w⟩ := c
    simp only [Memory.write]
    split
    · simp only [Memory.get?]; grind
    · split
      · simp only [Memory.get?]; grind
      · simp only [Memory.get?, ih]; grind

/-- A read after a write of one byte. -/
theorem Memory.read_write (m : Memory) (a b : Nat) (v : Byte) :
    (m.write a v).read b = if b = a then v else m.read b := by
  simp only [Memory.read, Memory.get?_write]
  split <;> grind

/-- A read after a write of a block. -/
theorem Memory.read_writeBytes (m : Memory) (a b : Nat) (bs : List Byte) :
    (m.writeBytes a bs).read b = if h : a ≤ b ∧ b - a < bs.length then bs[b - a]'h.2 else m.read b := by
  induction bs generalizing m a with
  | nil => simp [Memory.writeBytes]
  | cons v bs ih =>
    rw [Memory.writeBytes, ih, Memory.read_write]
    by_cases h0 : b = a
    · subst h0; simp
    · by_cases h1 : a + 1 ≤ b ∧ b - (a + 1) < bs.length
      · have h2 : b - a = (b - (a + 1)) + 1 := by omega
        have h3 : a ≤ b ∧ b - a < (v :: bs).length := by simp only [List.length_cons]; omega
        rw [dif_pos h1, dif_pos h3]
        simp [h2]
      · have h3 : ¬(a ≤ b ∧ b - a < (v :: bs).length) := by simp only [List.length_cons]; omega
        rw [dif_neg h1, dif_neg h3, if_neg h0]

/-- A byte outside the block reads as before. -/
theorem Memory.read_writeBytes_outside (m : Memory) (a b : Nat) (bs : List Byte) (h : ¬(a ≤ b ∧ b < a + bs.length)) :
    (m.writeBytes a bs).read b = m.read b := by
  rw [Memory.read_writeBytes, dif_neg (by omega)]

/-- Byte `i` of the block reads as it was written. -/
theorem Memory.read_writeBytes_at (m : Memory) (a i : Nat) (bs : List Byte) (h : i < bs.length) :
    (m.writeBytes a bs).read (a + i) = bs[i] := by
  rw [Memory.read_writeBytes, dif_pos (by omega)]
  simp

@[simp] theorem Memory.length_readBytes (m : Memory) (a n : Nat) : (m.readBytes a n).length = n := by
  simp [Memory.readBytes]

@[simp] theorem Memory.getElem_readBytes (m : Memory) (a n i : Nat) (h : i < (m.readBytes a n).length) :
    (m.readBytes a n)[i] = m.read (a + i) := by
  simp [Memory.readBytes]

/-- The bytes of the block read back as a list. -/
theorem Memory.readBytes_writeBytes (m : Memory) (a : Nat) (bs : List Byte) :
    (m.writeBytes a bs).readBytes a bs.length = bs := by
  apply List.ext_getElem (by simp)
  intro i h _
  rw [Memory.getElem_readBytes, Memory.read_writeBytes_at]

/-- Two memories that read the same on a block have the same bytes there. -/
theorem Memory.readBytes_congr (m m' : Memory) (a n : Nat) (h : ∀ i < n, m'.read (a + i) = m.read (a + i)) :
    m'.readBytes a n = m.readBytes a n := by
  apply List.ext_getElem (by simp)
  intro i hi _
  rw [Memory.getElem_readBytes, Memory.getElem_readBytes, h i (by simpa using hi)]

/-! The canonical form. -/

theorem Memory.wf_cons (k : Nat) (w : Byte) (rest : Memory) :
    Memory.wf ((k, w) :: rest) = (rest.wf && (match rest with | [] => true | (b, _) :: _ => decide (k < b))) := by
  cases rest with
  | nil => simp [Memory.wf]
  | cons c rest => simp [Memory.wf, Bool.and_comm]

/-- A write keeps the addresses rising. -/
theorem Memory.wf_write (m : Memory) (a : Nat) (v : Byte) (h : m.wf = true) : (m.write a v).wf = true := by
  induction m with
  | nil => simp [Memory.write, Memory.wf]
  | cons c rest ih =>
    obtain ⟨k, w⟩ := c
    simp only [Memory.write]
    split
    · simp_all [Memory.wf]
    · split
      · subst_vars; rw [Memory.wf_cons] at h ⊢; exact h
      · rw [Memory.wf_cons, Bool.and_eq_true] at h
        rw [Memory.wf_cons, ih h.1]
        cases rest with
        | nil => simp only [Memory.write, Bool.true_and, decide_eq_true_eq]; omega
        | cons d rest =>
          obtain ⟨k', w'⟩ := d
          have h2 := h.2
          simp only [decide_eq_true_eq] at h2
          have ha : k < a := by omega
          by_cases h3 : a < k'
          · simp [Memory.write, h3, ha]
          · by_cases h4 : a = k'
            · simp [Memory.write, h4, h2]
            · simp [Memory.write, h3, h4, h2]

theorem Memory.wf_writeBytes (m : Memory) (a : Nat) (bs : List Byte) (h : m.wf = true) : (m.writeBytes a bs).wf = true := by
  induction bs generalizing m a with
  | nil => exact h
  | cons v bs ih => exact ih _ _ (Memory.wf_write m a v h)

/-- A write below the size keeps every address below it. -/
theorem Memory.below_write (size : Nat) (m : Memory) (a : Nat) (v : Byte) (ha : a < size) (h : m.below size = true) :
    (m.write a v).below size = true := by
  induction m with
  | nil => simp [Memory.write, Memory.below, ha]
  | cons c rest ih =>
    obtain ⟨k, w⟩ := c
    simp only [Memory.below, List.all_cons, Bool.and_eq_true, decide_eq_true_eq] at h ih
    simp only [Memory.write]
    split
    · simp [Memory.below, ha, h.1]; simpa using h.2
    · split
      · simp [Memory.below, ha]; simpa using h.2
      · simp only [Memory.below, List.all_cons, Bool.and_eq_true, decide_eq_true_eq]
        exact ⟨h.1, ih h.2⟩

/-- A block that ends at or below the size keeps every address below it. -/
theorem Memory.below_writeBytes (size : Nat) (m : Memory) (a : Nat) (bs : List Byte) (ha : bs = [] ∨ a + bs.length ≤ size)
    (h : m.below size = true) : (m.writeBytes a bs).below size = true := by
  induction bs generalizing m a with
  | nil => exact h
  | cons v bs ih =>
    simp only [List.length_cons, reduceCtorEq, false_or] at ha
    refine ih _ _ (.inr (by omega)) (Memory.below_write size m a v (by omega) h)

/-- Memories in canonical form that record the same bytes are equal data. -/
theorem Memory.eq_of_get?_eq (m m' : Memory) (h : m.wf = true) (h' : m'.wf = true) (he : ∀ a, m.get? a = m'.get? a) :
    m = m' := by
  have none_below : ∀ (r : Memory) (k : Nat) (w : Byte), Memory.wf ((k, w) :: r) = true → ∀ a ≤ k, r.get? a = none := by
    intro r
    induction r with
    | nil => intros; rfl
    | cons d r ih =>
      obtain ⟨k', w'⟩ := d
      intro k w hw a ha
      have hk : k < k' := by simp [Memory.wf] at hw; exact hw.1
      have hr : Memory.wf ((k', w') :: r) = true := by simp [Memory.wf] at hw; exact hw.2
      rw [Memory.get?, if_neg (by omega)]
      exact ih k' w' hr a (by omega)
  have tail_wf : ∀ (r : Memory) (c : Host.Cell), Memory.wf (c :: r) = true → r.wf = true := by
    intro r c hw
    obtain ⟨k, w⟩ := c
    rw [Memory.wf_cons, Bool.and_eq_true] at hw
    exact hw.1
  induction m generalizing m' with
  | nil =>
    cases m' with
    | nil => rfl
    | cons d r => obtain ⟨k, w⟩ := d; have := he k; simp [Memory.get?] at this
  | cons c r ih =>
    obtain ⟨k, w⟩ := c
    cases m' with
    | nil => have := he k; simp [Memory.get?] at this
    | cons d r' =>
      obtain ⟨k', w'⟩ := d
      have hkk : k = k' := by
        rcases Nat.lt_trichotomy k k' with hlt | heq | hgt
        · have h1 := he k
          rw [Memory.get?, if_pos rfl, Memory.get?, if_neg (by omega), none_below r' k' w' h' k (by omega)] at h1
          cases h1
        · exact heq
        · have h1 := he k'
          rw [Memory.get?, if_neg (by omega), none_below r k w h k' (by omega), Memory.get?, if_pos rfl] at h1
          cases h1
      subst hkk
      have hw : w = w' := by have h1 := he k; simp [Memory.get?] at h1; exact h1
      subst hw
      have hr : r = r' := by
        apply ih r' (tail_wf _ _ h) (tail_wf _ _ h')
        intro a
        by_cases hak : a = k
        · subst hak; rw [none_below r a w h a (le_refl _), none_below r' a w h' a (le_refl _)]
        · have h1 := he a
          rwa [Memory.get?, if_neg (fun h => hak h.symm), Memory.get?, if_neg (fun h => hak h.symm)] at h1
      rw [hr]

/-! 16-bit elements. -/

theorem halfOf_halfBytes (h : Half) : halfOf (h.extractLsb' 0 8) (h.extractLsb' 8 8) = h := by
  apply BitVec.eq_of_getLsbD_eq
  intro i hi
  simp only [halfOf, BitVec.getLsbD_append, BitVec.getLsbD_extractLsb']
  by_cases h8 : i < 8
  · simp [h8]
  · have : i - 8 < 8 := by omega
    have e : 8 + (i - 8) = i := by omega
    simp [h8, this, e]

theorem wordOf?_wordBytes (w : Word) : wordOf? (wordBytes w) = some w := by
  simp only [wordOf?, wordBytes, Option.some.injEq]
  apply BitVec.eq_of_getLsbD_eq
  intro i hi
  simp only [BitVec.getLsbD_append, BitVec.getLsbD_extractLsb']
  by_cases h8 : i < 8
  · simp [h8]
  · by_cases h16 : i < 16
    · have h1 : i - 8 < 8 := by omega
      have e : 8 + (i - 8) = i := by omega
      simp [h8, h1, e]
    · by_cases h24 : i < 24
      · have h0 : ¬ i - 8 < 8 := by omega
        have h1 : i - 8 - 8 < 8 := by omega
        have e : 16 + (i - 8 - 8) = i := by omega
        simp [h8, h0, h1, e]
      · have h0 : ¬ i - 8 < 8 := by omega
        have h1 : ¬ i - 8 - 8 < 8 := by omega
        have h2 : i - 8 - 8 - 8 < 8 := by omega
        have e : 24 + (i - 8 - 8 - 8) = i := by omega
        simp [h8, h0, h1, h2, e]

@[simp] theorem length_wordBytes (w : Word) : (wordBytes w).length = 4 := rfl

@[simp] theorem length_bytesOf16s (vs : List Int) : (bytesOf16s vs).length = 2 * vs.length := by
  induction vs with
  | nil => rfl
  | cons v vs ih => simp only [bytesOf16s, List.flatMap_cons, List.length_append] at ih ⊢; rw [ih]; simp [halfBytes]; omega

@[simp] theorem length_bytesOf8s (vs : List Int) : (bytesOf8s vs).length = vs.length := by simp [bytesOf8s]

theorem bytesOf16s_even (vs : List Int) (i : Nat) (h : i < vs.length) :
    (bytesOf16s vs)[2 * i]'(by simp; omega) = (bitsOf 16 vs[i]).extractLsb' 0 8 := by
  induction vs generalizing i with
  | nil => simp at h
  | cons v vs ih =>
    cases i with
    | zero => rfl
    | succ i => exact ih i (by simpa using h)

theorem bytesOf16s_odd (vs : List Int) (i : Nat) (h : i < vs.length) :
    (bytesOf16s vs)[2 * i + 1]'(by simp; omega) = (bitsOf 16 vs[i]).extractLsb' 8 8 := by
  induction vs generalizing i with
  | nil => simp at h
  | cons v vs ih =>
    cases i with
    | zero => rfl
    | succ i => exact ih i (by simpa using h)

/-- Element `i` of a stored sequence of 16-bit elements reads back as its 16 bits. -/
theorem Memory.read16_writeBytes_bytesOf16s (m : Memory) (base i : Nat) (vs : List Int) (h : i < vs.length) :
    (m.writeBytes base (bytesOf16s vs)).read16 (base + 2 * i) = bitsOf 16 vs[i] := by
  rw [Memory.read16, Nat.add_assoc, Memory.read_writeBytes_at _ _ _ _ (by simp; omega), Memory.read_writeBytes_at _ _ _ _ (by simp; omega),
    bytesOf16s_even vs i h, bytesOf16s_odd vs i h, halfOf_halfBytes]

end Sys2Proof.Machine
end

