-- ==== Sys2Proof/Laws/Ops.lean ====
section
/-! SUPPORT. Laws/Ops.lean: extents, the shared checks, and everything a completion can do. -/

namespace Sys2Proof.Machine

/-! Extents. -/

theorem Extent.has_iff (e : Extent) (a : Nat) : e.has a = true ↔ e.addr ≤ a ∧ a < e.addr + e.len := by
  simp [Extent.has]

theorem Extent.inRange_iff (size : Nat) (e : Extent) : e.inRange size = true ↔ e.len = 0 ∨ e.addr + e.len ≤ size := by
  simp [Extent.inRange]

theorem Extent.overlaps_iff (x y : Extent) :
    x.overlaps y = true ↔ 0 < x.len ∧ 0 < y.len ∧ x.addr < y.addr + y.len ∧ y.addr < x.addr + x.len := by
  simp [Extent.overlaps, and_assoc]

/-- Two extents that do not overlap share no byte. -/
theorem Extent.not_has_both (x y : Extent) (h : x.overlaps y = false) (a : Nat) (hx : x.has a = true) : y.has a = false := by
  rw [Bool.eq_false_iff] at h ⊢
  intro hy
  apply h
  rw [Extent.has_iff] at hx hy
  rw [Extent.overlaps_iff]
  omega

/-- The checks S3 to S5 find nothing exactly when the extents are good. -/
theorem extentFailure?_eq_none (i : Instr) (s : State) : extentFailure? s (srcExtent i s) = none ↔ ExtentsGood i s := by
  simp only [extentFailure?, ExtentsGood]
  repeat' split <;> simp_all

/-- What S3 to S5 can answer, and when. -/
theorem extentFailure?_cases (s : State) (src : Extent) :
    (extentFailure? s src = some .addrRange ∧
      (src.inRange s.memSize.val = false ∨ s.dstExtent.inRange s.memSize.val = false)) ∨
    (extentFailure? s src = some .overlap ∧ src.inRange s.memSize.val = true ∧ s.dstExtent.inRange s.memSize.val = true ∧
      src.overlaps s.dstExtent = true) ∨
    (extentFailure? s src = none ∧ src.inRange s.memSize.val = true ∧ s.dstExtent.inRange s.memSize.val = true ∧
      src.overlaps s.dstExtent = false) := by
  simp only [extentFailure?]
  repeat' split <;> simp_all

/-! Completion. -/

/-- The code of a completion. -/
def Completion.code : Completion → Code
  | .success _ _ _ => .ok
  | .failure c _ _ => c

/-- The bytes a completion writes. -/
def Completion.output : Completion → List Byte
  | .success _ _ out => out
  | .failure _ _ _ => []

/-- What every completion leaves alone. -/
theorem complete_frame (s : State) (c : Completion) : CommandFrame s (complete s c) := by
  cases c <;> exact ⟨⟨rfl, rfl, rfl, rfl, rfl, rfl, rfl⟩, rfl, rfl, rfl, rfl, rfl⟩

@[simp] theorem complete_phase (s : State) (c : Completion) : (complete s c).phase = .idle := by cases c <;> rfl
@[simp] theorem complete_done (s : State) (c : Completion) : (complete s c).done = true := by cases c <;> rfl
@[simp] theorem complete_code (s : State) (c : Completion) : (complete s c).code = c.code := by cases c <;> rfl
@[simp] theorem complete_memSize (s : State) (c : Completion) : (complete s c).memSize = s.memSize := by cases c <;> rfl
@[simp] theorem complete_agenda (s : State) (c : Completion) : (complete s c).agenda = s.agenda := by cases c <;> rfl

/-- Buffer memory after a completion: its output, from DST_ADDR up. -/
theorem complete_mem (s : State) (c : Completion) : (complete s c).mem = s.mem.writeBytes s.dstAddr.toNat c.output := by
  cases c <;> rfl

theorem complete_success (s : State) (r0 : Nat) (r1 : Int) (out : List Byte) :
    Finished (complete s (.success r0 r1 out)) .ok r0 r1 := ⟨rfl, rfl, rfl, rfl, rfl⟩

theorem complete_failure (s : State) (c : Code) (r0 : Nat) (r1 : Int) :
    Finished (complete s (.failure c r0 r1)) c r0 r1 := ⟨rfl, rfl, rfl, rfl, rfl⟩

/-- How each command completes. -/
def completionOf (i : Instr) (s : State) : Completion :=
  match i with
  | .cellUnpack => cellUnpackResult s
  | .cellPack => cellPackResult s
  | .dpcmEnc8 => dpcmEnc8Result s
  | .dpcmEnc16 => dpcmEnc16Result s
  | .dpcmDec8 => dpcmDec8Result s
  | .dpcmDec16 => dpcmDec16Result s
  | .envExpand => envExpandResult s

/-- After its checks S2 to S5, how each command completes. -/
def bodyOf (i : Instr) (s : State) : Completion :=
  match i with
  | .cellUnpack => cellUnpackBody s
  | .cellPack => cellPackBody s
  | .dpcmEnc8 => dpcmEnc8Body s
  | .dpcmEnc16 => dpcmEnc16Body s
  | .dpcmDec8 => dpcmDec8Body s
  | .dpcmDec16 => dpcmDec16Body s
  | .envExpand => envExpandBody s

/-- Every command completes in its one step. -/
theorem exec_eq (i : Instr) (s : State) : exec i s = .next (complete s (completionOf i s)) := by cases i <;> rfl

/-- The check S2 passes. -/
def CountGood (i : Instr) (s : State) : Prop := i = .envExpand → 2 ≤ s.arg0.toNat ∧ s.arg0.toNat ≤ 12

/-- A command whose check S2 passes runs S3 to S5 and then its body. -/
theorem completionOf_eq (i : Instr) (s : State) (h : CountGood i s) :
    completionOf i s = match extentFailure? s (srcExtent i s) with
      | some code => .failure code 0 0
      | none => bodyOf i s := by
  cases i
  case envExpand =>
    have hn : ¬(s.count < 2 ∨ 12 < s.count) := by have := h rfl; simp only [State.count, zext]; omega
    exact if_neg hn
  all_goals rfl

/-- A command whose checks S2 to S5 pass runs its body. -/
theorem completionOf_good (i : Instr) (s : State) (h : CountGood i s) (he : ExtentsGood i s) :
    completionOf i s = bodyOf i s := by
  rw [completionOf_eq i s h, (extentFailure?_eq_none i s).2 he]

/-- Everything that can come before the body: S2, S3, S4 or S5 fails, or all pass. -/
theorem completionOf_cases (i : Instr) (s : State) :
    (∃ code, code ≠ .ok ∧ completionOf i s = .failure code 0 0 ∧ ¬(CountGood i s ∧ ExtentsGood i s)) ∨
    (CountGood i s ∧ ExtentsGood i s ∧ completionOf i s = bodyOf i s) := by
  by_cases hc : CountGood i s
  · by_cases he : ExtentsGood i s
    · exact .inr ⟨hc, he, completionOf_good i s hc he⟩
    · left
      rw [completionOf_eq i s hc]
      rcases extentFailure?_cases s (srcExtent i s) with h | h | h
      · rw [h.1]; exact ⟨_, by decide, rfl, fun h' => he h'.2⟩
      · rw [h.1]; exact ⟨_, by decide, rfl, fun h' => he h'.2⟩
      · exact absurd h.2 he
  · left
    have hi : i = .envExpand := by by_contra h; exact hc fun h' => absurd h' h
    subst hi
    refine ⟨.envCount, by decide, ?_, fun h' => hc h'.1⟩
    have hp : s.count < 2 ∨ 12 < s.count := by
      by_contra h
      simp only [State.count, zext] at h
      exact hc fun _ => by omega
    simp only [completionOf, envExpandResult, if_pos hp]

/-- A completion keeps the invariant when its output fits the destination extent and that extent is in range. -/
theorem complete_inv (s : State) (c : Completion) (hs : s.Inv)
    (h : c.output = [] ∨ s.dstAddr.toNat + c.output.length ≤ s.memSize.val) : (complete s c).Inv := by
  refine ⟨?_, ?_, ?_⟩
  · rw [complete_mem]; exact Memory.wf_writeBytes _ _ _ hs.memWf
  · rw [complete_mem, complete_memSize]; exact Memory.below_writeBytes _ _ _ _ h hs.memBelow
  · intro h; simp at h

end Sys2Proof.Machine
end

