-- ==== Sys2Proof/Laws/Bus.lean ====
section
/-! SUPPORT. Laws/Bus.lean: everything a Host access and a reset can do. -/

namespace Sys2Proof.Machine

theorem State.busy_iff (s : State) : s.busy = true ↔ s.phase = .busy := by
  cases h : s.phase <;> simp [State.busy, h]

theorem State.busy_of_idle (s : State) (h : s.phase = .idle) : s.busy = false := by simp [State.busy, h]

/-- STATUS as a number: its fields at their places (10_state.md R25). -/
theorem statusWord_toNat (s : State) :
    s.statusWord.toNat = s.busy.toNat + 2 * s.done.toNat + 4 * s.overrun.toNat + 256 * s.code.bits.toNat := by
  simp only [State.statusWord]
  generalize s.busy = b
  cases b <;> cases s.done <;> cases s.overrun <;> cases s.code <;> decide

@[simp] theorem Reg.atOffset?_offset (r : Reg) : Reg.atOffset? r.offset = some r := by cases r <;> rfl

/-- An offset names a register only if it is that register's. -/
theorem Reg.offset_of_atOffset? (o : BitVec 8) (r : Reg) (h : Reg.atOffset? o = some r) : o = r.offset := by
  apply BitVec.eq_of_toNat_eq
  simp only [Reg.atOffset?] at h
  split at h <;> simp_all <;> subst h <;> rfl

@[simp] theorem windowAccessLegal_offset (r : Reg) : windowAccessLegal r.offset 4 = true := by cases r <;> rfl

theorem windowAccessLegal_iff (o : BitVec 8) (width : Nat) :
    windowAccessLegal o width = true ↔ width = 4 ∧ o.toNat % 4 = 0 := by
  simp [windowAccessLegal]

/-- A reserved offset names no register (10_state.md R34). -/
theorem Reg.atOffset?_reserved (o : BitVec 8) (h : 0x28 ≤ o.toNat) : Reg.atOffset? o = none := by
  simp only [Reg.atOffset?]
  split <;> first | omega | rfl

/-- Four bytes are some word's. -/
theorem wordOf?_of_length (data : List Byte) (h : data.length = 4) : ∃ w, wordOf? data = some w := by
  match data, h with
  | [b0, b1, b2, b3], _ => exact ⟨_, rfl⟩

/-! A register write. -/

/-- What a register write does in each phase. -/
theorem configWrite_idle (s t : State) (h : s.phase = .idle) : s.configWrite t = t := by
  simp [State.configWrite, s.busy_of_idle h]

theorem configWrite_busy (s t : State) (h : s.phase = .busy) : s.configWrite t = s.markOverrun := by
  simp [State.configWrite, (s.busy_iff).2 h]

/-- Everything a register write can do. -/
theorem writeOffset_cases (s : State) (o : BitVec 8) (v : Word) :
    s.writeOffset o v = s ∨
    s.writeOffset o v = s.clearFlags v ∨
    (s.phase = .busy ∧ s.writeOffset o v = s.markOverrun) ∨
    (s.phase = .idle ∧ o = 0x00 ∧ s.writeOffset o v = s.start v) ∨
    (s.phase = .idle ∧ ∃ a b c d e f, s.writeOffset o v =
      { s with srcAddr := a, srcLen := b, dstAddr := c, dstCap := d, arg0 := e, arg1 := f }) := by
  simp only [State.writeOffset]
  cases ho : Reg.atOffset? o with
  | none => exact .inl rfl
  | some r =>
    have := Reg.offset_of_atOffset? o r ho
    subst this
    have hph : s.phase = .idle ∨ s.phase = .busy := by cases s.phase <;> simp
    rcases hph with hp | hp
    · cases r <;> simp only [State.writeReg, configWrite_idle s _ hp]
      case cmd => exact .inr (.inr (.inr (.inl ⟨hp, rfl, trivial⟩)))
      case status => exact .inr (.inl trivial)
      case res0 => exact .inl trivial
      case res1 => exact .inl trivial
      case srcAddr => exact .inr (.inr (.inr (.inr ⟨hp, v, _, _, _, _, _, rfl⟩)))
      case srcLen => exact .inr (.inr (.inr (.inr ⟨hp, _, v, _, _, _, _, rfl⟩)))
      case dstAddr => exact .inr (.inr (.inr (.inr ⟨hp, _, _, v, _, _, _, rfl⟩)))
      case dstCap => exact .inr (.inr (.inr (.inr ⟨hp, _, _, _, v, _, _, rfl⟩)))
      case arg0 => exact .inr (.inr (.inr (.inr ⟨hp, _, _, _, _, v, _, rfl⟩)))
      case arg1 => exact .inr (.inr (.inr (.inr ⟨hp, _, _, _, _, _, v, rfl⟩)))
    · cases r <;> simp only [State.writeReg, configWrite_busy s _ hp]
      case status => exact .inr (.inl trivial)
      case res0 => exact .inl trivial
      case res1 => exact .inl trivial
      all_goals exact .inr (.inr (.inl ⟨hp, trivial⟩))

/-! Host accesses. -/

/-- Everything a Host access that goes on can do. -/
theorem hostAccess_cases (a : HostAction) (s t : State) (h : hostAccess a s = .next t) :
    (∃ o data v, a = .regWrite o data ∧ windowAccessLegal o data.length = true ∧ wordOf? data = some v ∧
      t = s.writeOffset o v) ∨
    (∃ o width, a = .regRead o width ∧ windowAccessLegal o width = true ∧ t = s.deliver (wordBytes (s.readOffset o))) ∨
    (∃ addr data, a = .memWrite addr data ∧ Extent.inRange s.memSize.val ⟨zext addr, data.length⟩ = true ∧
      s.writeHazard ⟨zext addr, data.length⟩ = false ∧ t = s.withMem (s.mem.writeBytes (zext addr) data)) ∨
    (∃ addr count, a = .memRead addr count ∧ Extent.inRange s.memSize.val ⟨zext addr, count⟩ = true ∧
      t = (s.deliver (s.hostBytes (zext addr) count)).drawn (if s.busy then count else 0)) := by
  cases a with
  | regWrite o data =>
    left
    simp only [hostAccess] at h
    split at h
    · split at h
      · exact ⟨o, data, _, rfl, ‹_›, ‹_›, (Host.Outcome.next.inj h).symm⟩
      · cases h
    · cases h
  | regRead o width =>
    right; left
    simp only [hostAccess] at h
    split at h
    · exact ⟨o, width, rfl, ‹_›, (Host.Outcome.next.inj h).symm⟩
    · cases h
  | memWrite addr data =>
    right; right; left
    simp only [hostAccess] at h
    split at h
    · cases h
    · split at h
      · cases h
      · exact ⟨addr, data, rfl, by simp_all, by simp_all, (Host.Outcome.next.inj h).symm⟩
  | memRead addr count =>
    right; right; right
    simp only [hostAccess] at h
    split at h
    · cases h
    · exact ⟨addr, count, rfl, by simp_all, (Host.Outcome.next.inj h).symm⟩

/-- A legal register write. -/
theorem hostAccess_regWrite (o : BitVec 8) (v : Word) (s : State) (h : o.toNat % 4 = 0) :
    hostAccess (.regWrite o (wordBytes v)) s = .next (s.writeOffset o v) := by
  simp only [hostAccess, length_wordBytes, (windowAccessLegal_iff o 4).2 ⟨rfl, h⟩, if_true, wordOf?_wordBytes]

theorem hostAccess_writeReg (r : Reg) (v : Word) (s : State) :
    hostAccess (.regWrite r.offset (wordBytes v)) s = .next (s.writeReg v r) := by
  rw [hostAccess_regWrite _ _ _ (by cases r <;> rfl), State.writeOffset, Reg.atOffset?_offset]

/-- A legal register read. -/
theorem hostAccess_regRead (o : BitVec 8) (s : State) (h : o.toNat % 4 = 0) :
    hostAccess (.regRead o 4) s = .next (s.deliver (wordBytes (s.readOffset o))) := by
  simp only [hostAccess, (windowAccessLegal_iff o 4).2 ⟨rfl, h⟩, if_true]

theorem hostAccess_readReg (r : Reg) (s : State) :
    hostAccess (.regRead r.offset 4) s = .next (s.deliver (wordBytes (s.readReg r))) := by
  rw [hostAccess_regRead _ _ (by cases r <;> rfl), State.readOffset, Reg.atOffset?_offset]

/-- No Host access changes MEM_SIZE. -/
theorem hostAccess_memSize (a : HostAction) (s t : State) (h : hostAccess a s = .next t) : t.memSize = s.memSize := by
  rcases hostAccess_cases a s t h with ⟨o, _, v, _, _, _, rfl⟩ | ⟨_, _, _, _, rfl⟩ | ⟨_, _, _, _, _, rfl⟩ | ⟨_, _, _, _, rfl⟩
  · rcases writeOffset_cases s o v with e | e | ⟨_, e⟩ | ⟨_, _, e⟩ | ⟨_, _, _, _, _, _, _, e⟩ <;> rw [e] <;> rfl
  · rfl
  · rfl
  · rfl

/-- A Host access while BUSY leaves the running command as it is: its registers, its results and its phase. -/
theorem hostAccess_busy (a : HostAction) (s t : State) (hb : s.phase = .busy) (h : hostAccess a s = .next t) :
    t.phase = .busy ∧ OperandsKept s t ∧ t.res0 = s.res0 ∧ t.res1 = s.res1 ∧ t.code = s.code ∧ t.memSize = s.memSize := by
  rcases hostAccess_cases a s t h with ⟨o, _, v, _, _, _, rfl⟩ | ⟨_, _, _, _, rfl⟩ | ⟨_, _, _, _, _, rfl⟩ | ⟨_, _, _, _, rfl⟩
  · rcases writeOffset_cases s o v with e | e | ⟨_, e⟩ | ⟨hi, _, e⟩ | ⟨hi, _, _, _, _, _, _, e⟩
    · rw [e]; exact ⟨hb, ⟨rfl, rfl, rfl, rfl, rfl, rfl, rfl⟩, rfl, rfl, rfl, rfl⟩
    · rw [e]; exact ⟨hb, ⟨rfl, rfl, rfl, rfl, rfl, rfl, rfl⟩, rfl, rfl, rfl, rfl⟩
    · rw [e]; exact ⟨hb, ⟨rfl, rfl, rfl, rfl, rfl, rfl, rfl⟩, rfl, rfl, rfl, rfl⟩
    · rw [hb] at hi; cases hi
    · rw [hb] at hi; cases hi
  · exact ⟨hb, ⟨rfl, rfl, rfl, rfl, rfl, rfl, rfl⟩, rfl, rfl, rfl, rfl⟩
  · exact ⟨hb, ⟨rfl, rfl, rfl, rfl, rfl, rfl, rfl⟩, rfl, rfl, rfl, rfl⟩
  · exact ⟨hb, ⟨rfl, rfl, rfl, rfl, rfl, rfl, rfl⟩, rfl, rfl, rfl, rfl⟩

/-! Reset. -/

@[simp] theorem applyReset_memSize (s : State) : (applyReset s).memSize = s.memSize := by
  simp only [applyReset]; split <;> rfl

@[simp] theorem applyReset_phase (s : State) : (applyReset s).phase = .idle := by
  simp only [applyReset]; split <;> rfl

@[simp] theorem applyReset_agenda (s : State) : (applyReset s).agenda = s.agenda := by
  simp only [applyReset]; split <;> rfl

@[simp] theorem clearRegs_readReg (s : State) (r : Reg) : s.clearRegs.readReg r = 0 := by
  cases r
  case status => simp [State.readReg, State.statusWord, State.busy, Code.bits]
  all_goals rfl

theorem applyReset_readReg (s : State) (r : Reg) : (applyReset s).readReg r = 0 := by
  simp only [applyReset]
  split <;> simp

theorem applyReset_mem_idle (s : State) (h : s.phase = .idle) : (applyReset s).mem = s.mem := by
  simp [applyReset, s.busy_of_idle h]

theorem applyReset_mem_busy (s : State) (h : s.phase = .busy) : (applyReset s).mem =
    s.mem.writeBytes s.dstBase ((List.range s.dstBytes).map fun i => Config.freeByte (s.draws + i)) := by
  simp [applyReset, (s.busy_iff).2 h, State.scrambleDst]

end Sys2Proof.Machine
end

