-- ==== Sys2Proof/Laws/Cell.lean ====
section
/-! SUPPORT. Laws/Cell.lean: the unpacker as a cursor over stream bytes, as 40_pattern_cell.md R101 writes it. -/

namespace Sys2Proof.Machine

/-- The stream bytes from cursor `p` up to `L`. -/
def streamFrom (b : Nat → Byte) (L p : Nat) : List Byte := (List.range' p (L - p)).map b

theorem readBytes_eq_streamFrom (s : State) : s.mem.readBytes s.srcBase s.declaredLen =
    streamFrom (streamByte s) s.declaredLen 0 := by
  simp only [Memory.readBytes, streamFrom, Nat.sub_zero, List.range_eq_range']
  rfl

@[simp] theorem length_streamFrom (b : Nat → Byte) (L p : Nat) : (streamFrom b L p).length = L - p := by
  simp [streamFrom]

/-- A byte is read while the cursor is below L; at L the stream has run out. -/
theorem takeByte_streamFrom (b : Nat → Byte) (L p : Nat) :
    takeByte (streamFrom b L p) = if p < L then some (b p, streamFrom b L (p + 1)) else none := by
  by_cases h : p < L
  · obtain ⟨k, hk⟩ : ∃ k, L - p = k + 1 := ⟨L - p - 1, by omega⟩
    have h2 : L - (p + 1) = k := by omega
    simp only [streamFrom, hk, h2, if_pos h, List.range'_succ, List.map_cons, takeByte]
  · have h2 : L - p = 0 := by omega
    simp only [streamFrom, h2, if_neg h, List.range'_zero, List.map_nil, takeByte]

theorem takeField_streamFrom (c : Bool) (b : Nat → Byte) (L p : Nat) (hp : p ≤ L) :
    takeField c (streamFrom b L p) =
      if p + c.toNat ≤ L then some (if c then b p else 0, streamFrom b L (p + c.toNat)) else none := by
  cases c
  · simp [takeField, hp]
  · simp only [takeField, takeByte_streamFrom, if_true, Bool.toNat_true]
    rfl

/-- The number of set bits of the presence bits below `k`. -/
def presentBelow (present : BitVec 5) : Nat → Nat
  | 0 => 0
  | k + 1 => presentBelow present k + (present.getLsbD k).toNat

/-- Field `k` of a cell whose field bytes begin at `p`. -/
def fieldAt (b : Nat → Byte) (present : BitVec 5) (p k : Nat) : Byte :=
  if present.getLsbD k then b (p + presentBelow present k) else 0

/-- The five fields are read as the presence bits say, or the stream runs out. -/
theorem takeFields_streamFrom (m : Byte) (present : BitVec 5) (b : Nat → Byte) (L p : Nat) (hp : p ≤ L) :
    takeFields m present (streamFrom b L p) =
      if p + presentBelow present 5 ≤ L then
        some (⟨m, fieldAt b present p 0, fieldAt b present p 1, fieldAt b present p 2, fieldAt b present p 3,
          fieldAt b present p 4⟩, streamFrom b L (p + presentBelow present 5))
      else none := by
  simp only [takeFields, fieldAt, presentBelow, takeField_streamFrom _ b L p hp, Nat.add_zero, Nat.zero_add]
  generalize (present.getLsbD 0).toNat = n0
  by_cases h0 : p + n0 ≤ L
  · simp only [if_pos h0, takeField_streamFrom _ b L _ h0, Nat.add_assoc]
    generalize (present.getLsbD 1).toNat = n1
    by_cases h1 : p + (n0 + n1) ≤ L
    · simp only [if_pos h1, takeField_streamFrom _ b L _ h1, Nat.add_assoc]
      generalize (present.getLsbD 2).toNat = n2
      by_cases h2 : p + (n0 + (n1 + n2)) ≤ L
      · simp only [if_pos h2, takeField_streamFrom _ b L _ h2, Nat.add_assoc]
        generalize (present.getLsbD 3).toNat = n3
        by_cases h3 : p + (n0 + (n1 + (n2 + n3))) ≤ L
        · simp only [if_pos h3, takeField_streamFrom _ b L _ h3, Nat.add_assoc]
          generalize (present.getLsbD 4).toNat = n4
          by_cases h4 : p + (n0 + (n1 + (n2 + (n3 + n4)))) ≤ L
          · simp only [if_pos h4]
          · simp only [if_neg h4]
        · rw [if_neg h3]; exact (if_neg (by omega)).symm
      · rw [if_neg h2]; exact (if_neg (by omega)).symm
    · rw [if_neg h1]; exact (if_neg (by omega)).symm
  · rw [if_neg h0]; exact (if_neg (by omega)).symm

theorem presentBelow_mask (m : Byte) (k : Nat) (hk : k ≤ 5) : presentBelow (m.extractLsb' 0 5) k = bitsBelow m k := by
  induction k with
  | zero => rfl
  | succ k ih =>
    have h5 : k < 5 := by omega
    simp only [presentBelow, bitsBelow, ih (by omega), BitVec.getLsbD_extractLsb', h5, decide_true, Bool.true_and, Nat.zero_add]
    cases m.getLsbD k <;> rfl

/-- The cell that begins at cursor `p`, by the encoding rules R80 to R83. -/
def cellFrom (b : Nat → Byte) (p : Nat) : Cell :=
  ⟨b p, fieldByte b p 0, fieldByte b p 1, fieldByte b p 2, fieldByte b p 3, fieldByte b p 4⟩

/-- `unpack_cell(pos)`: the cell and the cursor after it when its bytes lie below L, TRUNC when one is at L or above. -/
theorem unpackCell_streamFrom (b : Nat → Byte) (L p : Nat) (hp : p ≤ L) :
    unpackCell (streamFrom b L p) =
      if p + cellLength (b p) ≤ L then some (cellFrom b p, streamFrom b L (p + cellLength (b p))) else none := by
  simp only [unpackCell, takeByte_streamFrom]
  by_cases hL : p < L
  · simp only [if_pos hL]
    by_cases hm : (b p).getLsbD 7 = true
    · simp only [hm, if_true, takeFields_streamFrom _ _ _ _ _ (show p + 1 ≤ L by omega), presentBelow_mask _ 5 (le_refl _),
        cellLength, Nat.add_assoc]
      have hf : ∀ k < 5, fieldAt b ((b p).extractLsb' 0 5) (p + 1) k = fieldByte b p k := by
        intro k hk
        simp only [fieldAt, fieldByte, hm, if_true, presentBelow_mask _ k (by omega), BitVec.getLsbD_extractLsb', hk, decide_true,
          Bool.true_and, Nat.zero_add]
      simp only [cellFrom, hf 0 (by omega), hf 1 (by omega), hf 2 (by omega), hf 3 (by omega), hf 4 (by omega)]
    · have h4 : presentBelow 0b11110 5 = 4 := by decide
      have hf : ∀ k < 5, 1 ≤ k → fieldAt b 0b11110 (p + 1) k = fieldByte b p k := by
        intro k hk h1
        have hc : k = 1 ∨ k = 2 ∨ k = 3 ∨ k = 4 := by omega
        rw [show fieldByte b p k = b (p + k) from if_neg hm]
        rcases hc with rfl | rfl | rfl | rfl <;> simp [fieldAt, presentBelow, Nat.add_assoc]
      have h0 : fieldByte b p 0 = b p := if_neg hm
      simp only [hm, takeFields_streamFrom _ _ _ _ _ (show p + 1 ≤ L by omega), h4, cellLength, Nat.add_assoc]
      simp only [Bool.false_eq_true, ↓reduceIte, Nat.reduceAdd]
      split
      · rename_i h
        split at h
        · cases h
        · rename_i h5; rw [if_neg h5]
      · rename_i c r h
        split at h
        · rename_i h5
          simp only [Option.some.injEq, Prod.mk.injEq] at h
          obtain ⟨rfl, rfl⟩ := h
          rw [if_pos h5]
          simp only [cellFrom, hf 1 (by omega) (by omega), hf 2 (by omega) (by omega), hf 3 (by omega) (by omega),
            hf 4 (by omega) (by omega), h0]
        · cases h
  · have : 1 ≤ cellLength (b p) := by simp only [cellLength]; split <;> omega
    rw [if_neg hL, if_neg (by omega)]

/-- Every cell takes at least one byte. -/
theorem cellLength_pos (m : Byte) : 1 ≤ cellLength m := by simp only [cellLength]; split <;> omega

theorem cursor_lt_succ (b : Nat → Byte) (k : Nat) : cursor b k < cursor b (k + 1) := by
  have := cellLength_pos (b (cursor b k)); simp only [cursor]; omega

theorem cursor_mono (b : Nat → Byte) (j k : Nat) (h : j ≤ k) : cursor b j ≤ cursor b k := by
  induction k with
  | zero => simp_all
  | succ k ih =>
    rcases Nat.lt_or_ge j (k + 1) with h1 | h1
    · have := ih (by omega); have := cursor_lt_succ b k; omega
    · have : j = k + 1 := by omega
      rw [this]

theorem le_cursor (b : Nat → Byte) (k : Nat) : k ≤ cursor b k := by
  induction k with
  | zero => simp
  | succ k ih => have := cursor_lt_succ b k; omega

/-- Everything `unpack_stream` can find from cell `k` on: all cells lie below L and the rest begins after them, or the stream
runs out in the first cell that does not. -/
theorem unpackStream_streamFrom (b : Nat → Byte) (L k n : Nat) (hk : cursor b k ≤ L) :
    (cursor b (k + n) ≤ L ∧ unpackStream n (streamFrom b L (cursor b k)) =
      .cells ((List.range' k n).map fun j => cellFrom b (cursor b j)) (streamFrom b L (cursor b (k + n)))) ∨
    (∃ j, k ≤ j ∧ j < k + n ∧ cursor b j ≤ L ∧ L < cursor b (j + 1) ∧
      unpackStream n (streamFrom b L (cursor b k)) = .truncated (j - k)) := by
  induction n generalizing k with
  | zero => left; exact ⟨hk, rfl⟩
  | succ n ih =>
    simp only [unpackStream, unpackCell_streamFrom b L _ hk]
    by_cases h1 : cursor b (k + 1) ≤ L
    · have h2 : cursor b k + cellLength (b (cursor b k)) ≤ L := h1
      rw [if_pos h2]
      have e : k + 1 + n = k + (n + 1) := by omega
      rcases ih (k + 1) h1 with ⟨ha, hb⟩ | ⟨j, hj1, hj2, hj3, hj4, hb⟩
      · left
        rw [e] at ha hb
        refine ⟨ha, ?_⟩
        have hc : cursor b k + cellLength (b (cursor b k)) = cursor b (k + 1) := rfl
        simp only [hc, hb, Unpacked.cons, List.range'_succ, List.map_cons]
      · right
        refine ⟨j, by omega, by omega, hj3, hj4, ?_⟩
        simp only [cursor] at hb
        simp only [hb, Unpacked.cons, Unpacked.truncated.injEq]
        omega
    · right
      refine ⟨k, le_refl _, by omega, hk, by omega, ?_⟩
      have h2 : ¬ cursor b k + cellLength (b (cursor b k)) ≤ L := h1
      rw [if_neg h2]
      simp

/-- The same for the whole stream of a command. -/
theorem unpackStream_command (s : State) (n : Nat) :
    (cursor (streamByte s) n ≤ s.declaredLen ∧ unpackStream n (s.mem.readBytes s.srcBase s.declaredLen) =
      .cells ((List.range n).map fun j => cellFrom (streamByte s) (cursor (streamByte s) j))
        (streamFrom (streamByte s) s.declaredLen (cursor (streamByte s) n))) ∨
    (∃ j, j < n ∧ cursor (streamByte s) j ≤ s.declaredLen ∧ s.declaredLen < cursor (streamByte s) (j + 1) ∧
      unpackStream n (s.mem.readBytes s.srcBase s.declaredLen) = .truncated j) := by
  rw [readBytes_eq_streamFrom]
  have h := unpackStream_streamFrom (streamByte s) s.declaredLen 0 n (Nat.zero_le _)
  simpa [cursor, List.range_eq_range'] using h

/-- Six bytes a cell. -/
@[simp] theorem length_flatMap_cellBytes (cs : List Cell) : (cs.flatMap Cell.bytes).length = 6 * cs.length := by
  induction cs with
  | nil => rfl
  | cons c cs ih => simp only [List.flatMap_cons, List.length_append, ih]; simp [Cell.bytes]; omega

/-- Byte `f` of record `k`. -/
theorem getElem_flatMap_cellBytes (cs : List Cell) (k f : Nat) (hk : k < cs.length) (hf : f < 6) :
    (cs.flatMap Cell.bytes)[6 * k + f]'(by rw [length_flatMap_cellBytes]; omega) = (cs[k].bytes)[f]'(by simpa [Cell.bytes] using hf) := by
  induction cs generalizing k with
  | nil => simp at hk
  | cons c cs ih =>
    cases k with
    | zero => simp only [List.flatMap_cons, Nat.mul_zero, Nat.zero_add]; rw [List.getElem_append_left]; rfl
    | succ k =>
      simp only [List.flatMap_cons]
      rw [List.getElem_append_right (by simp [Cell.bytes]; omega)]
      have h := ih k (by simpa using hk)
      simp only [List.getElem_cons_succ, ← h]
      congr 1
      simp [Cell.bytes]; omega

/-! Packing. -/

/-- The packed length of the first `n` cells. -/
theorem length_packStream (s : State) (n : Nat) :
    (packStream (cellsAt s.mem s.srcBase n)).length = packOffset s n := by
  induction n with
  | zero => rfl
  | succ n ih =>
    simp only [packStream, cellsAt, List.range_succ, List.map_append, List.flatMap_append, List.length_append] at ih ⊢
    rw [ih]
    simp [packOffset, sourceCell]

theorem packStream_split (s : State) (k n : Nat) (h : k < n) : ∃ tail,
    packStream (cellsAt s.mem s.srcBase n) = packStream (cellsAt s.mem s.srcBase k) ++ (packCell (sourceCell s k) ++ tail) := by
  induction n with
  | zero => omega
  | succ n ih =>
    have step : packStream (cellsAt s.mem s.srcBase (n + 1)) =
        packStream (cellsAt s.mem s.srcBase n) ++ packCell (sourceCell s n) := by
      simp [packStream, cellsAt, List.range_succ, sourceCell]
    rcases Nat.lt_or_ge k n with h1 | h1
    · obtain ⟨tail, ht⟩ := ih h1
      exact ⟨tail ++ packCell (sourceCell s n), by rw [step, ht]; simp⟩
    · have : k = n := by omega
      subst this
      exact ⟨[], by rw [step]; simp⟩

/-- Byte `p` of the packed form of cell `k` stands at its offset plus `p`. -/
theorem getElem_packStream (s : State) (k n p : Nat) (h : k < n) (hp : p < (packCell (sourceCell s k)).length) :
    ∃ hlt : packOffset s k + p < (packStream (cellsAt s.mem s.srcBase n)).length,
      (packStream (cellsAt s.mem s.srcBase n))[packOffset s k + p] = (packCell (sourceCell s k))[p] := by
  obtain ⟨tail, ht⟩ := packStream_split s k n h
  have hl := length_packStream s k
  refine ⟨by rw [ht]; simp only [List.length_append, hl]; omega, ?_⟩
  simp only [ht]
  rw [List.getElem_append_right (by omega), List.getElem_append_left (by omega)]
  congr 1
  omega

end Sys2Proof.Machine
end

