-- ==== Sys2Proof/Laws/Dpcm.lean ====
section
/-! SUPPORT. Laws/Dpcm.lean: the DPCM recursions over lists as the recurrences of 41_dpcm.md R141 and R142. -/

namespace Sys2Proof.Machine

/-- One step of R141: delta, error count, carry. -/
def encodeStep (n : Nat) (prev p carry : Int) (errors : Nat) : Int × Nat × Int :=
  if maxInt n < p - prev + carry then (maxInt n, errors + 1, p - prev + carry - maxInt n)
  else if p - prev + carry < minInt n then (minInt n, errors + 1, p - prev + carry - minInt n)
  else (p - prev + carry, errors, 0)

theorem encodeFrom_cons (n : Nat) (prev carry p : Int) (errors : Nat) (rest : List Int) :
    encodeFrom n prev carry errors (p :: rest) =
      let st := encodeStep n prev p carry errors
      let r := encodeFrom n p st.2.2 st.2.1 rest
      ⟨st.1 :: r.deltas, r.errors, r.carry⟩ := by
  simp only [encodeFrom, encodeStep]
  split
  · rfl
  · split <;> rfl

@[simp] theorem length_encodeFrom (n : Nat) (prev carry : Int) (errors : Nat) (ps : List Int) :
    (encodeFrom n prev carry errors ps).deltas.length = ps.length := by
  induction ps generalizing prev carry errors with
  | nil => rfl
  | cons p ps ih => simp [encodeFrom_cons, ih]

@[simp] theorem length_dpcmEncode (n : Nat) (ps : List Int) : (dpcmEncode n ps).deltas.length = ps.length := by
  cases ps <;> simp [dpcmEncode]

/-- Encoding a longer list goes on from where the shorter one ended. -/
theorem encodeFrom_append (n : Nat) (prev carry : Int) (errors : Nat) (xs ys : List Int) :
    encodeFrom n prev carry errors (xs ++ ys) =
      let r := encodeFrom n prev carry errors xs
      let r' := encodeFrom n (xs.getLastD prev) r.carry r.errors ys
      ⟨r.deltas ++ r'.deltas, r'.errors, r'.carry⟩ := by
  induction xs generalizing prev carry errors with
  | nil => rfl
  | cons x xs ih =>
    simp only [List.cons_append, encodeFrom_cons, ih, List.getLastD_cons]

theorem dpcmEncode_append (n : Nat) (xs ys : List Int) (h : xs ≠ []) :
    dpcmEncode n (xs ++ ys) =
      let r := dpcmEncode n xs
      let r' := encodeFrom n (xs.getLastD 0) r.carry r.errors ys
      ⟨r.deltas ++ r'.deltas, r'.errors, r'.carry⟩ := by
  cases xs with
  | nil => exact absurd rfl h
  | cons x xs =>
    simp only [dpcmEncode, List.cons_append, encodeFrom_append, List.getLastD_cons]

/-- One more sample. -/
theorem dpcmEncode_snoc (n : Nat) (xs : List Int) (x : Int) (h : xs ≠ []) :
    dpcmEncode n (xs ++ [x]) =
      let r := dpcmEncode n xs
      let st := encodeStep n (xs.getLastD 0) x r.carry r.errors
      ⟨r.deltas ++ [st.1], st.2.1, st.2.2⟩ := by
  rw [dpcmEncode_append n xs [x] h]
  simp only [encodeFrom_cons]
  rfl

/-- The error count after step `i`. -/
def errorsAfter (n : Nat) (p : List Int) (i : Nat) : Nat := (dpcmEncode n (p.take (i + 1))).errors

/-- The deltas of a prefix are a prefix of the deltas. -/
theorem dpcmEncode_take_deltas (n : Nat) (p : List Int) (k : Nat) (hk : 0 < k) :
    (dpcmEncode n (p.take k)).deltas = (dpcmEncode n p).deltas.take k := by
  by_cases hne : p.take k = []
  · have hp : p = [] := by
      rcases p with _ | ⟨x, xs⟩
      · rfl
      · cases k <;> simp_all
    subst hp
    simp [dpcmEncode]
  · have key := congrArg Encoded.deltas (dpcmEncode_append n (p.take k) (p.drop k) hne)
    rw [List.take_append_drop] at key
    rw [key]
    rcases Nat.lt_or_ge p.length k with h | h
    · rw [List.drop_eq_nil_of_le (by omega)]
      simp [encodeFrom, List.take_of_length_le, Nat.le_of_lt h]
    · rw [List.take_left' (by simp; omega)]

/-- R141 as a recurrence: from step `i` to step `i + 1`. -/
theorem encodeStep_after (n : Nat) (p : List Int) (i : Nat) (h : i + 1 < p.length) :
    ((dpcmEncode n p).deltas[i + 1]!, errorsAfter n p (i + 1), carryAfter n p (i + 1)) =
      encodeStep n p[i]! p[i + 1]! (carryAfter n p i) (errorsAfter n p i) := by
  have hne : p.take (i + 1) ≠ [] := by
    intro h0
    have := congrArg List.length h0
    rw [List.length_take, List.length_nil] at this
    omega
  have hs : p.take (i + 1 + 1) = p.take (i + 1) ++ [p[i + 1]] := List.take_succ_eq_append_getElem h
  have hlast : (p.take (i + 1)).getLastD 0 = p[i]! := by
    rw [List.take_succ_eq_append_getElem (show i < p.length by omega), List.getLastD_concat, getElem!_pos]
  have hsnoc := dpcmEncode_snoc n (p.take (i + 1)) p[i + 1] hne
  rw [← hs, hlast] at hsnoc
  have hp : p[i + 1]! = p[i + 1] := by simp [h]
  have hd := dpcmEncode_take_deltas n p (i + 1 + 1) (by omega)
  have hdl : (dpcmEncode n p).deltas[i + 1]! = (dpcmEncode n (p.take (i + 1 + 1))).deltas[i + 1]! := by
    rw [hd]
    simp [h]
  have hde : (dpcmEncode n (p.take (i + 1 + 1))).deltas[i + 1]! =
      (encodeStep n p[i]! p[i + 1]! (carryAfter n p i) (errorsAfter n p i)).1 := by
    rw [hsnoc, hp]
    have hl : (dpcmEncode n (p.take (i + 1))).deltas.length = i + 1 := by simp; omega
    simp only [carryAfter, errorsAfter]
    rw [getElem!_pos _ _ (by simp [hl]), List.getElem_append_right (by omega)]
    simp [hl]
  rw [hdl, hde]
  simp only [errorsAfter, carryAfter]
  rw [hsnoc, hp]

/-- After the first sample nothing is carried and nothing is counted. -/
theorem after_zero (n : Nat) (p : List Int) : carryAfter n p 0 = 0 ∧ errorsAfter n p 0 = 0 := by
  cases p <;> exact ⟨rfl, rfl⟩

/-- The first delta is the first sample. -/
theorem dpcmEncode_first (n : Nat) (p : List Int) (h : 0 < p.length) : (dpcmEncode n p).deltas[0]! = p[0]! := by
  cases p <;> simp_all [dpcmEncode]

/-- What the whole list ends with is what its last step left. -/
theorem dpcmEncode_last (n : Nat) (p : List Int) :
    (dpcmEncode n p).errors = errorsAfter n p (p.length - 1) ∧ (dpcmEncode n p).carry = carryAfter n p (p.length - 1) := by
  cases p with
  | nil => exact ⟨rfl, rfl⟩
  | cons x xs => simp [errorsAfter, carryAfter]

/-- `dpcm_encode_N` is the recurrence of R141. -/
theorem encoderRun_dpcmEncode (n : Nat) (p : List Int) :
    EncoderRun n p.length (fun i => p[i]!) (fun i => (dpcmEncode n p).deltas[i]!) (carryAfter n p) (errorsAfter n p) where
  first h := dpcmEncode_first n p h
  noCarry := (after_zero n p).1
  noError := (after_zero n p).2
  high i h hc := by
    have e := encodeStep_after n p i h
    simp only [encodeStep, if_pos hc, Prod.mk.injEq] at e
    exact ⟨e.1, e.2.2, e.2.1⟩
  low i h hc := by
    have e := encodeStep_after n p i h
    have : ¬ maxInt n < p[i + 1]! - p[i]! + carryAfter n p i := by
      have hmm : minInt n ≤ maxInt n := by
        have h1 : 1 ≤ 2 ^ (n - 1) := Nat.one_le_two_pow
        simp only [minInt, maxInt]; omega
      omega
    simp only [encodeStep, if_neg this, if_pos hc, Prod.mk.injEq] at e
    exact ⟨e.1, e.2.2, e.2.1⟩
  inside i h h1 h2 := by
    have e := encodeStep_after n p i h
    simp only [encodeStep, if_neg (show ¬ maxInt n < p[i + 1]! - p[i]! + carryAfter n p i by omega),
      if_neg (show ¬ p[i + 1]! - p[i]! + carryAfter n p i < minInt n by omega), Prod.mk.injEq] at e
    exact ⟨e.1, e.2.2, e.2.1⟩

/-! Decoding. -/

@[simp] theorem length_decodeFrom (n : Nat) (q : Int) (ds : List Int) : (decodeFrom n q ds).length = ds.length := by
  induction ds generalizing q with
  | nil => rfl
  | cons d ds ih => simp [decodeFrom, ih]

@[simp] theorem length_dpcmDecode (n : Nat) (ds : List Int) : (dpcmDecode n ds).length = ds.length := by
  cases ds <;> simp [dpcmDecode]

theorem decodeFrom_next (n : Nat) (q : Int) (ds : List Int) (i : Nat) (h : i < ds.length) :
    (decodeFrom n q ds)[i]! = wrapInt n ((q :: decodeFrom n q ds)[i]! + ds[i]!) := by
  induction ds generalizing q i with
  | nil => simp at h
  | cons d ds ih =>
    cases i with
    | zero => rfl
    | succ i =>
      have := ih (wrapInt n (q + d)) i (by simpa using h)
      simpa [decodeFrom] using this

/-- `dpcm_decode_N` is the recurrence of R142. -/
theorem decoderRun_dpcmDecode (n : Nat) (ds : List Int) :
    DecoderRun n ds.length (fun i => ds[i]!) (fun i => (dpcmDecode n ds)[i]!) where
  first h := by cases ds <;> simp_all [dpcmDecode]
  next i h := by
    cases ds with
    | nil => simp at h
    | cons d ds =>
      have := decodeFrom_next n d ds i (by simpa using h)
      simpa [dpcmDecode] using this

/-! The elements in buffer memory. -/

@[simp] theorem length_signed16s (m : Memory) (base n : Nat) : (signed16s m base n).length = n := by simp [signed16s]
@[simp] theorem length_signed8s (m : Memory) (base n : Nat) : (signed8s m base n).length = n := by simp [signed8s]

theorem getElem!_signed16s (m : Memory) (base n i : Nat) (h : i < n) :
    (signed16s m base n)[i]! = sext (m.read16 (base + 2 * i)) := by
  simp [signed16s, h]

theorem getElem!_signed8s (m : Memory) (base n i : Nat) (h : i < n) :
    (signed8s m base n)[i]! = sext (m.read (base + i)) := by
  simp [signed8s, h]

end Sys2Proof.Machine
end

