-- ==== Sys2Proof/Laws/Env.lean ====
section
/-! SUPPORT. Laws/Env.lean: the order check and the table of 42_envelope.md R181 to R184 by index. -/

namespace Sys2Proof.Machine

/-- The tick positions of a list strictly increase. -/
def Ordered (pts : List Breakpoint) : Prop := ∀ k (h : k + 1 < pts.length), pts[k].x < pts[k + 1].x

theorem Ordered.tail {p : Breakpoint} {pts : List Breakpoint} (h : Ordered (p :: pts)) : Ordered pts :=
  fun k hk => h (k + 1) (by simpa using hk)

/-- The order check fails exactly at the first pair out of order. -/
theorem firstDisorder_eq_some (pts : List Breakpoint) (k : Nat) : firstDisorder pts = some k ↔
    ∃ h : k + 1 < pts.length, pts[k + 1].x ≤ pts[k].x ∧ ∀ j (hj : j < k), pts[j].x < pts[j + 1].x := by
  induction pts generalizing k with
  | nil => simp [firstDisorder]
  | cons p pts ih =>
    cases pts with
    | nil => simp [firstDisorder]
    | cons q rest =>
      simp only [firstDisorder]
      by_cases hpq : q.x ≤ p.x
      · rw [if_pos hpq]
        constructor
        · intro h
          cases h
          exact ⟨by simp, hpq, fun j hj => absurd hj (by omega)⟩
        · rintro ⟨h, _, hlt⟩
          cases k with
          | zero => rfl
          | succ k => have := hlt 0 (by omega); simp at this; omega
      · rw [if_neg hpq, Option.map_eq_some_iff]
        constructor
        · rintro ⟨k', hk', rfl⟩
          obtain ⟨h, hle, hlt⟩ := (ih k').1 hk'
          refine ⟨by simpa using h, hle, ?_⟩
          intro j hj
          cases j with
          | zero => simp; omega
          | succ j => exact hlt j (by omega)
        · rintro ⟨h, hle, hlt⟩
          cases k with
          | zero => exact absurd hle hpq
          | succ k =>
            exact ⟨k, (ih k).2 ⟨by simpa using h, hle, fun j hj => hlt (j + 1) (by omega)⟩, rfl⟩

/-- The order check passes exactly when the tick positions strictly increase. -/
theorem firstDisorder_eq_none (pts : List Breakpoint) : firstDisorder pts = none ↔ Ordered pts := by
  induction pts with
  | nil => simp [firstDisorder, Ordered]
  | cons p pts ih =>
    cases pts with
    | nil => simp [firstDisorder, Ordered]
    | cons q rest =>
      simp only [firstDisorder]
      by_cases hpq : q.x ≤ p.x
      · rw [if_pos hpq]
        constructor
        · intro h; cases h
        · intro h; have := h 0 (by simp); simp at this; omega
      · rw [if_neg hpq, Option.map_eq_none_iff, ih]
        constructor
        · intro h k hk
          cases k with
          | zero => simp; omega
          | succ k => exact h k (by simpa using hk)
        · exact Ordered.tail

@[simp] theorem length_segment (p q : Breakpoint) : (segment p q).length = q.x - p.x + 1 := by simp [segment]

/-- Entry `j` of a segment. -/
theorem getElem_segment (p q : Breakpoint) (h : p.x ≤ q.x) (j : Nat) (hj : j < (segment p q).length) :
    (segment p q)[j] = segmentValue p.y q.y (q.x - p.x) j := by
  simp only [segment, List.getElem_map, List.getElem_range, segmentValue, slope, shlInt]
  rw [Nat.cast_sub h]
  rfl

/-- The entry of tick `x_k + j` of segment `k`. -/
theorem getElem?_envTable (pts : List Breakpoint) (h : Ordered pts) (k j : Nat) (hk : k + 1 < pts.length)
    (hj : j ≤ pts[k + 1].x - pts[k].x) :
    pts[0].x ≤ pts[k].x ∧ (envTable pts)[(pts[k].x - pts[0].x) + k + j]? =
      some (segmentValue pts[k].y pts[k + 1].y (pts[k + 1].x - pts[k].x) j) := by
  induction pts generalizing k with
  | nil => simp at hk
  | cons p pts ih =>
    cases pts with
    | nil => simp at hk
    | cons q rest =>
      have hpq : p.x < q.x := by have := h 0 (by simp); simpa using this
      simp only [envTable]
      cases k with
      | zero =>
        refine ⟨le_refl _, ?_⟩
        simp only [List.getElem_cons_zero, List.getElem_cons_succ, Nat.sub_self, Nat.zero_add] at hj ⊢
        have hl : j < (segment p q).length := by simp; omega
        rw [List.getElem?_append_left hl, List.getElem?_eq_getElem hl, getElem_segment _ _ (by omega)]
      | succ k =>
        have hk' : k + 1 < (q :: rest).length := by simpa using hk
        obtain ⟨h0, he⟩ := ih h.tail k hk' (by simpa using hj)
        simp only [List.getElem_cons_succ, List.getElem_cons_zero] at hj h0 he ⊢
        refine ⟨by omega, ?_⟩
        rw [List.getElem?_append_right (by simp; omega), ← he]
        congr 1
        simp
        omega

/-- The length of the table. -/
theorem length_envTable (pts : List Breakpoint) (h : Ordered pts) (n : Nat) (hn : pts.length = n + 1) :
    pts[0].x ≤ pts[n].x ∧ (envTable pts).length = (pts[n].x - pts[0].x) + n := by
  induction pts generalizing n with
  | nil => simp at hn
  | cons p pts ih =>
    cases pts with
    | nil =>
      have : n = 0 := by simpa using hn.symm
      subst this
      simp [envTable]
    | cons q rest =>
      have hpq : p.x < q.x := by have := h 0 (by simp); simpa using this
      obtain ⟨m, rfl⟩ : ∃ m, n = m + 1 := ⟨rest.length, by simpa using hn.symm⟩
      obtain ⟨h0, he⟩ := ih h.tail m (by simpa using hn)
      simp only [List.getElem_cons_zero] at h0 he
      simp only [envTable, List.length_append, length_segment, he, List.getElem_cons_succ, List.getElem_cons_zero]
      omega

@[simp] theorem length_breakpointsAt (m : Memory) (base n : Nat) : (breakpointsAt m base n).length = n := by
  simp [breakpointsAt]

theorem getElem_breakpointsAt (s : State) (n k : Nat) (h : k < (breakpointsAt s.mem s.srcBase n).length) :
    (breakpointsAt s.mem s.srcBase n)[k] = ⟨pointX s k, pointY s k⟩ := by
  simp [breakpointsAt, breakpointAt, pointX, pointY]

/-- The source list is ordered exactly when its tick positions strictly increase. -/
theorem ordered_breakpointsAt (s : State) : Ordered (breakpointsAt s.mem s.srcBase s.count) ↔ Increasing s := by
  simp only [Ordered, Increasing, length_breakpointsAt, getElem_breakpointsAt]

/-- The table of an ordered source has the length of R183. -/
theorem length_envTable_source (s : State) (h : Increasing s) (hc : 0 < s.count) :
    (envTable (breakpointsAt s.mem s.srcBase s.count)).length = tableLength s := by
  have := (length_envTable _ ((ordered_breakpointsAt s).2 h) (s.count - 1) (by simp; omega)).2
  simpa only [getElem_breakpointsAt, tableLength] using this

end Sys2Proof.Machine
end

