-- ==== Sys2Proof/Laws/Exec.lean ====
section
/-! SUPPORT. Laws/Exec.lean: the one lemma that says what a command can do, which later proofs cite instead of unfolding the
meanings. -/

namespace Sys2Proof.Machine

/-- After S2 to S5: the command fails S6 or S7 with a code other than OK, or it succeeds with an output of the size the table of
R212 gives. -/
theorem body_spec (i : Instr) (s : State) (hc : CountGood i s) :
    (∃ c r0 r1, c ≠ .ok ∧ bodyOf i s = .failure c r0 r1 ∧ ¬(DataGood i s ∧ outputSize i s ≤ s.capacity)) ∨
    (∃ r0 r1 out, bodyOf i s = .success r0 r1 out ∧ out.length = outputSize i s ∧ DataGood i s ∧ outputSize i s ≤ s.capacity) := by
  cases i
  case cellUnpack =>
    simp only [bodyOf, cellUnpackBody, DataGood, outputSize]
    rcases unpackStream_command s s.cellCount with ⟨hle, h⟩ | ⟨j, h1, h2, h3, h⟩
    · rw [h]
      simp only [length_streamFrom]
      by_cases he : s.declaredLen - cursor (streamByte s) s.cellCount = 0
      · rw [if_pos he]
        have he' : cursor (streamByte s) s.cellCount = s.declaredLen := by omega
        by_cases hcap : s.capacity < 6 * s.cellCount
        · rw [if_pos hcap]; left; exact ⟨_, _, _, by decide, rfl, by omega⟩
        · rw [if_neg hcap]; right; exact ⟨_, _, _, rfl, by rw [length_flatMap_cellBytes]; simp, he', by omega⟩
      · rw [if_neg he]; left; exact ⟨_, _, _, by decide, rfl, by omega⟩
    · rw [h]; left
      have := cursor_mono (streamByte s) (j+1) s.cellCount (by omega)
      exact ⟨_, _, _, by decide, rfl, by omega⟩
  case cellPack =>
    simp only [bodyOf, cellPackBody, DataGood, outputSize, length_packStream]
    by_cases hcap : s.capacity < packOffset s s.cellCount
    · rw [if_pos hcap]; left; exact ⟨_, _, _, by decide, rfl, by omega⟩
    · rw [if_neg hcap]; right; exact ⟨_, _, _, rfl, length_packStream _ _, trivial, by omega⟩
  case envExpand =>
    have hcc := hc rfl
    have e : s.count = s.arg0.toNat := rfl
    simp only [bodyOf, envExpandBody, DataGood, outputSize]
    cases hd : firstDisorder (breakpointsAt s.mem s.srcBase s.count) with
    | some k =>
      left
      refine ⟨_, _, _, by decide, rfl, ?_⟩
      rintro ⟨⟨_, _, hi⟩, _⟩
      rw [(firstDisorder_eq_none _).2 ((ordered_breakpointsAt s).2 hi)] at hd
      cases hd
    | none =>
      have hi := (ordered_breakpointsAt s).1 ((firstDisorder_eq_none _).1 hd)
      simp only [length_envTable_source s hi (by omega)]
      by_cases hcap : s.capacity < 2 * tableLength s
      · rw [if_pos hcap]; left; exact ⟨_, _, _, by decide, rfl, by omega⟩
      · rw [if_neg hcap]; right
        exact ⟨_, _, _, rfl, by rw [length_bytesOf16s, length_envTable_source s hi (by omega)], ⟨by omega, by omega, hi⟩, by omega⟩
  case dpcmEnc8 =>
    simp only [bodyOf, dpcmEnc8Body, DataGood, outputSize]
    split
    · left; exact ⟨_, _, _, by decide, rfl, by omega⟩
    · right; exact ⟨_, _, _, rfl, by simp, trivial, by omega⟩
  case dpcmEnc16 =>
    simp only [bodyOf, dpcmEnc16Body, DataGood, outputSize]
    split
    · left; exact ⟨_, _, _, by decide, rfl, by omega⟩
    · right; exact ⟨_, _, _, rfl, by simp, trivial, by omega⟩
  case dpcmDec8 =>
    simp only [bodyOf, dpcmDec8Body, DataGood, outputSize]
    split
    · left; exact ⟨_, _, _, by decide, rfl, by omega⟩
    · right; exact ⟨_, _, _, rfl, by simp, trivial, by omega⟩
  case dpcmDec16 =>
    simp only [bodyOf, dpcmDec16Body, DataGood, outputSize]
    split
    · left; exact ⟨_, _, _, by decide, rfl, by omega⟩
    · right; exact ⟨_, _, _, rfl, by simp, trivial, by omega⟩

/-- The data check of ENV.EXPAND includes its count check. -/
theorem countGood_of_data (i : Instr) (s : State) (h : DataGood i s) : CountGood i s := by
  rintro rfl; exact ⟨h.1, h.2.1⟩

/-- Everything a command can do (60_exceptions.md R212, R221): it fails some check and writes nothing, or it passes all of them and
writes exactly its output. -/
theorem completionOf_spec (i : Instr) (s : State) :
    (∃ c r0 r1, c ≠ .ok ∧ completionOf i s = .failure c r0 r1 ∧ ¬(ExtentsGood i s ∧ DataGood i s ∧ outputSize i s ≤ s.capacity)) ∨
    (∃ r0 r1 out, completionOf i s = .success r0 r1 out ∧ out.length = outputSize i s ∧ ExtentsGood i s ∧ DataGood i s ∧ outputSize i s ≤ s.capacity) := by
  rcases completionOf_cases i s with ⟨c, h0, h1, h2⟩ | ⟨hc, he, h⟩
  · left; exact ⟨c, 0, 0, h0, h1, fun h => h2 ⟨countGood_of_data i s h.2.1, h.1⟩⟩
  · rcases body_spec i s hc with ⟨c, r0, r1, h1, h2, h3⟩ | ⟨r0, r1, out, h1, h2, h3⟩
    · left; exact ⟨c, r0, r1, h1, h.trans h2, fun h => h3 h.2⟩
    · right; exact ⟨r0, r1, out, h.trans h1, h2, he, h3⟩

/-- A successful completion as a next state. -/
theorem exec_success (i : Instr) (s : State) (r0 : Nat) (r1 : Int) (out : List Byte)
    (h : completionOf i s = .success r0 r1 out) :
    ∃ t, exec i s = .next t ∧ Finished t .ok r0 r1 ∧ CommandFrame s t ∧ MemoryKeptOutside s t s.dstAddr.toNat out.length ∧
      t.mem = s.mem.writeBytes s.dstAddr.toNat out := by
  refine ⟨_, exec_eq i s, by rw [h]; exact complete_success s r0 r1 out, complete_frame _ _, ?_, by rw [h]; rfl⟩
  intro a ha
  rw [h]
  exact Memory.read_writeBytes_outside _ _ _ _ ha

/-- A failed completion as a next state. -/
theorem exec_failure (i : Instr) (s : State) (c : Code) (r0 : Nat) (r1 : Int) (h : completionOf i s = .failure c r0 r1) :
    EndsWith i s c r0 r1 := by
  refine ⟨_, exec_eq i s, ?_, complete_frame _ _, ?_⟩
  · rw [h]; exact complete_failure s c r0 r1
  · intro a; rw [h]; rfl

end Sys2Proof.Machine
end

