-- ==== Sys2Proof/Laws/PerInstr.lean ====
section
/-! SUPPORT. Laws/PerInstr.lean: for each command, its word and its bus bytes decode back to it (30_encoding.md R71, R74). -/

namespace Sys2Proof.Laws.EncodeDecode

/-- The command is well-formed, its word is legal, and the decoder reads it back from the word, from the bus bytes and from
the opcode table's numbering. -/
def Statement (i : Instr) : Prop :=
  i.wellFormed = true ∧ CommandWord.legal (encode i) = true ∧ decode (encode i) = .ok i ∧
    decodeBytes (encodeBytes i) = .ok i ∧ decodeTableWord 32 (encode i).toNat = some i

theorem cellUnpack : Statement .cellUnpack := by unfold Statement; decide
theorem cellPack : Statement .cellPack := by unfold Statement; decide
theorem dpcmEnc8 : Statement .dpcmEnc8 := by unfold Statement; decide
theorem dpcmEnc16 : Statement .dpcmEnc16 := by unfold Statement; decide
theorem dpcmDec8 : Statement .dpcmDec8 := by unfold Statement; decide
theorem dpcmDec16 : Statement .dpcmDec16 := by unfold Statement; decide
theorem envExpand : Statement .envExpand := by unfold Statement; decide

end Sys2Proof.Laws.EncodeDecode
end

