-- ==== Sys2Proof/Laws/Step.lean ====
section
/-! SUPPORT. Laws/Step.lean: everything a step can do. -/

namespace Sys2Proof.Machine

/-- Choosing who moves changes the pending inputs alone. -/
theorem nextMove_state (s : State) : (nextMove s).2 = s.withAgenda (nextMove s).2.agenda := by
  simp only [nextMove]
  split
  · rfl
  · rfl
  · rfl
  · split <;> rfl
  · rfl

/-- Everything a step that goes on can do. -/
theorem step_cases (s t : State) (h : step s = .next t) :
    ∃ es, (nextMove s).2 = s.withAgenda es ∧
      (((nextMove s).1 = .unit ∧ s.phase = .idle ∧ t = s.withAgenda es) ∨
        (∃ i, (nextMove s).1 = .unit ∧ s.phase = .busy ∧ decode s.cmd = .ok i ∧ exec i (s.withAgenda es) = .next t) ∨
        (∃ e, (nextMove s).1 = .unit ∧ s.phase = .busy ∧ decode s.cmd = .error e ∧ t = completeBadOp (s.withAgenda es)) ∨
        (∃ a, (nextMove s).1 = .host a ∧ hostAccess a (s.withAgenda es) = .next t) ∨
        ((nextMove s).1 = .reset ∧ t = applyReset (s.withAgenda es))) := by
  refine ⟨_, nextMove_state s, ?_⟩
  simp only [step] at h
  have hst := nextMove_state s
  generalize (nextMove s).2.agenda = es at hst ⊢
  rcases hm : nextMove s with ⟨m, s'⟩
  rw [hm] at h hst
  simp only at hst
  subst hst
  cases m with
  | unit =>
    simp only [unitStep] at h
    cases hp : s.phase with
    | idle =>
      simp only [State.withAgenda_phase, hp] at h
      exact .inl ⟨rfl, rfl, (Host.Outcome.next.inj h).symm⟩
    | busy =>
      simp only [State.withAgenda_phase, hp, fetch, State.withAgenda_cmd] at h
      cases hd : decode s.cmd with
      | ok i => rw [hd] at h; exact .inr (.inl ⟨i, rfl, rfl, rfl, h⟩)
      | error e => rw [hd] at h; exact .inr (.inr (.inl ⟨e, rfl, rfl, rfl, (Host.Outcome.next.inj h).symm⟩))
  | host a => exact .inr (.inr (.inr (.inl ⟨a, rfl, h⟩)))
  | reset => exact .inr (.inr (.inr (.inr ⟨rfl, (Host.Outcome.next.inj h).symm⟩)))

/-- The step the host's placement of a command leads to (LOG 2): the Unit runs exactly that command. -/
theorem step_placeCommand (s : State) (w : Word) (i : Instr) (h : decode w = .ok i) :
    step (s.placeCommand w) = exec i (s.start w) := by
  have hm : nextMove (s.placeCommand w) = (.unit, (s.placeCommand w).withAgenda s.agenda) := rfl
  have hs : (s.placeCommand w).withAgenda s.agenda = s.start w := rfl
  simp only [step, hm, hs, unitStep, State.start_phase, fetch, State.start_cmd, h]

end Sys2Proof.Machine
end

