-- ==== Sys2Proof/Tests/Slice0.lean ====
section
/-! SUPPORT. Tests/Slice0.lean: the model's own tests. Every expected value is taken from spec/95_test_vectors.md or worked out by
hand from the rule named; the `test_witness_…` theorems show that a statement's hypotheses can be met. -/

namespace Sys2Proof.Tests

open Sys2Proof.Machine

/-! Small states. -/

/-- After reset on a platform with MEM_SIZE = 0x1000, as 95_test_vectors.md L3 assumes. -/
def blank : State := { State.reset with memSize := ⟨0x1000, by decide⟩ }

/-- `blank` with bytes at 0x100 and the operand registers set. -/
def asking (bytes : List Byte) (src len dst cap arg0 arg1 : Word) : State :=
  { blank with
    mem := Memory.writeBytes [] 0x100 bytes
    srcAddr := src
    srcLen := len
    dstAddr := dst
    dstCap := cap
    arg0 := arg0
    arg1 := arg1 }

/-- The step succeeds and its next state passes the check. -/
def nextIs (o : Host.Outcome State Fault Refusal) (p : State → Bool) : Bool :=
  match o with
  | .next t => p t
  | .fault _ => false
  | .refused _ => false

/-- One step from the state in which the host has placed the command word: code, RES0, RES1 and the bytes at 0x200. -/
def completes (w : Nat) (s : State) (code : Code) (res0 res1 : Word) (out : List Byte) : Bool :=
  nextIs (step (s.withFetchWord 32 w)) fun t =>
    decide (t.code = code ∧ t.res0 = res0 ∧ t.res1 = res1 ∧ t.phase = .idle ∧ t.done = true ∧
      t.mem.readBytes 0x200 out.length = out)

/-- As `completes`, with buffer memory as before. -/
def failsWith (w : Nat) (s : State) (code : Code) (res0 res1 : Word) : Bool :=
  nextIs (step (s.withFetchWord 32 w)) fun t =>
    decide (t.code = code ∧ t.res0 = res0 ∧ t.res1 = res1 ∧ t.phase = .idle ∧ t.done = true ∧ t.mem = s.mem)

/-! Command words, written out from 30_encoding.md R70 and R71: RSVD in 31:4, OP in 3:0. -/

theorem test_decode_cellUnpack : decode 0b00000000000000000000000000000001 = .ok .cellUnpack := by decide
theorem test_decode_cellPack : decode 0b00000000000000000000000000000010 = .ok .cellPack := by decide
theorem test_decode_dpcmEnc8 : decode 0b00000000000000000000000000000011 = .ok .dpcmEnc8 := by decide
theorem test_decode_dpcmEnc16 : decode 0b00000000000000000000000000000100 = .ok .dpcmEnc16 := by decide
theorem test_decode_dpcmDec8 : decode 0b00000000000000000000000000000101 = .ok .dpcmDec8 := by decide
theorem test_decode_dpcmDec16 : decode 0b00000000000000000000000000000110 = .ok .dpcmDec16 := by decide
theorem test_decode_envExpand : decode 0b00000000000000000000000000000111 = .ok .envExpand := by decide

/-- R51: the least significant byte first. -/
theorem test_decode_bytes : decodeBytes [0x07, 0x00, 0x00, 0x00] = .ok .envExpand ∧
    decodeBytes [0x00, 0x00, 0x00, 0x07] = .error .reservedBits ∧ decodeBytes [0x07] = .error .length := by decide

/-- The smoke test of the word checks: RSVD not zero (V47, and one high bit), and the operation codes 0 (V46), 8 (V48), 15. -/
theorem test_ill_formed_words_are_refused :
    CommandWord.legal 0x00000017 = false ∧ decode 0x00000017 = .error .reservedBits ∧
    CommandWord.legal 0x80000007 = false ∧ decode 0x80000007 = .error .reservedBits ∧
    CommandWord.legal 0x00000000 = false ∧ decode 0x00000000 = .error .reservedOp ∧
    CommandWord.legal 0x00000008 = false ∧ decode 0x00000008 = .error .reservedOp ∧
    CommandWord.legal 0x0000000F = false ∧ decode 0x0000000F = .error .reservedOp := by decide

/-- Each check of `legal` alone refuses: RSVD with a good OP, OP with a zero RSVD. -/
theorem test_each_word_check_refuses :
    (CommandWord.rsvdZero 0x00000017 = false ∧ CommandWord.opAssigned 0x00000017 = true) ∧
    (CommandWord.rsvdZero 0x00000008 = true ∧ CommandWord.opAssigned 0x00000008 = false) := by decide

theorem test_commands_are_well_formed : ∀ i : Instr, i.wellFormed = true := by intro i; cases i <;> rfl

/-! One step of each command, by `withFetchWord`. -/

/-- V10. -/
theorem test_cellUnpack_compressed :
    completes 1 (asking [0x83, 0x31, 0x02] 0x100 3 0x200 100 1 1) .ok 3 1 [0x83, 0x31, 0x02, 0x00, 0x00, 0x00] = true := by
  decide

/-- V18: one byte too many. -/
theorem test_cellUnpack_leftover : failsWith 1 (asking [0x80, 0x80, 0x00] 0x100 3 0x200 100 1 2) .corrupt 2 2 = true := by
  decide

/-- V20c, and V20f after it in one matrix. -/
theorem test_cellPack_two_cells :
    completes 2 (asking [0x80, 0x31, 0x02, 0x40, 0x0F, 0x06, 0x00, 0x00, 0x05, 0x00, 0x00, 0x00] 0x100 0 0x200 8 2 1) .ok 8 2
      [0x9F, 0x31, 0x02, 0x40, 0x0F, 0x06, 0x82, 0x05] = true := by decide

/-- V20c with CAP = 5. -/
theorem test_cellPack_overflow :
    failsWith 2 (asking [0x80, 0x31, 0x02, 0x40, 0x0F, 0x06] 0x100 0 0x200 5 1 1) .dstOverflow 6 0 = true := by decide

/-- V28. -/
theorem test_dpcmEnc8_one_clamp :
    completes 3 (asking [0x34, 0x12, 0xCC, 0xED, 0x80, 0xFF, 0xFF, 0x7F] 0x100 0 0x200 4 4 0) .ok 1 1
      [0x12, 0xDB, 0x12, 0x7F] = true := by decide

/-- V34: the carry is negative. -/
theorem test_dpcmEnc16_negative_carry :
    completes 4 (asking [0x00, 0x00, 0xFF, 0x7F, 0x00, 0x80] 0x100 0 0x200 6 3 0) .ok 1 0xFFFF8001
      [0x00, 0x00, 0xFF, 0x7F, 0x00, 0x80] = true := by decide

/-- V30: the sum wraps in 8 bits. -/
theorem test_dpcmDec8_wraps :
    completes 5 (asking [0x9C, 0x7F, 0x80] 0x100 0 0x200 6 3 0) .ok 3 0 [0x00, 0x9C, 0x00, 0x1B, 0x00, 0x9B] = true := by
  decide

/-- V31. -/
theorem test_dpcmDec16_sums :
    completes 6 (asking [0x05, 0x00, 0xFE, 0xFF] 0x100 0 0x200 4 2 0) .ok 2 0 [0x05, 0x00, 0x03, 0x00] = true := by decide

/-- V53: extents of length 0 are in range anywhere. -/
theorem test_dpcmDec16_nothing : failsWith 6 (asking [] 0xFFFFFFFF 0 0xFFFFFFFF 0 0 0) .ok 0 0 = true := by decide

/-- V37: (10,64), (15,0), (16,32). -/
theorem test_envExpand_rounds :
    completes 7 (asking [0x0A, 0x00, 0x40, 0x00, 0x0F, 0x00, 0x00, 0x00, 0x10, 0x00, 0x20, 0x00] 0x100 0 0x200 16 3 0) .ok 8 0
      [0x40, 0, 0x33, 0, 0x26, 0, 0x19, 0, 0x0C, 0, 0x00, 0, 0x00, 0, 0x20, 0] = true := by decide

/-- V44: the second pair is out of order. -/
theorem test_envExpand_disorder :
    failsWith 7 (asking [0, 0, 0, 0, 2, 0, 0, 0, 1, 0, 0, 0] 0x100 0 0x200 100 3 0) .envOrder 0 1 = true := by decide

/-- V47, as a step: BAD_OP. -/
theorem test_illegal_word_completes : failsWith 0x17 blank .badOp 0 0 = true := by decide

/-! The bus. -/

/-- 10_state.md R25: DONE and OVERRUN set, CODE = DST_OVERFLOW, read as bus bytes at 0x04. -/
theorem test_status_bytes :
    nextIs (hostAccess (.regRead 0x04 4) { blank with done := true, overrun := true, code := .dstOverflow })
      (fun t => decide (t.hostData = [0x06, 0x08, 0x00, 0x00])) = true := by decide

/-- R37: a configuration write while BUSY sets OVERRUN and is dropped. -/
theorem test_write_while_busy :
    nextIs (hostAccess (.regWrite 0x18 [1, 0, 0, 0]) { blank with phase := .busy })
      (fun t => decide (t.arg0 = 0 ∧ t.overrun = true)) = true := by decide

/-- 70_reset_and_hazards.md R244: a Host write to the last source byte of a running DPCM.DEC16 of two elements. -/
theorem test_hazard_faults :
    hostAccess (.memWrite 0x103 [0xAA]) { asking [] 0x100 0 0x200 4 2 0 with phase := .busy, cmd := 6 } =
      .fault .hostWroteRunningExtent := by rfl

/-- 95_test_vectors.md P4's order of events in small: the write after the completion is not a hazard. -/
theorem test_wait_then_write :
    nextIs (step { asking [0x05, 0x00, 0xFE, 0xFF] 0x100 0 0x200 4 2 0 with phase := .busy, cmd := 6, agenda := [.wait] })
      (fun t => decide (t.phase = .idle ∧ t.agenda = [.wait])) = true := by decide

/-! Witnesses: for each statement with hypotheses, a concrete state and operands that meet all of them. -/

/-- A running DPCM.DEC16 of two elements (V31). -/
def running (agenda : List Event) : State :=
  { asking [0x05, 0x00, 0xFE, 0xFF] 0x100 0 0x200 4 2 0 with phase := .busy, cmd := 6, agenda := agenda }

theorem test_witness_StepRunsTheCommandInCmd :
    (running []).phase = .busy ∧ decode (running []).cmd = .ok .dpcmDec16 ∧ (running [.unit]).agenda = .unit :: [] ∧
      (running [.wait, .reset]).agenda = .wait :: [.reset] := by decide

/-- One word for each way to be illegal, at the boundary: V47, V46, V48. -/
theorem test_witness_IllegalWordCompletesWithBadOp :
    (∃ s : State, s.phase = .idle ∧ s.agenda = wr .cmd 0x17 :: .unit :: [] ∧ (0x17 : Word).extractLsb' 4 28 ≠ 0) ∧
    (∃ s : State, s.phase = .idle ∧ s.agenda = wr .cmd 0x00 :: .unit :: [] ∧ (0x00 : Word).extractLsb' 0 4 = 0) ∧
    (∃ s : State, s.phase = .idle ∧ s.agenda = wr .cmd 0x08 :: .unit :: [] ∧ 8 ≤ ((0x08 : Word).extractLsb' 0 4).toNat) :=
  ⟨⟨{ blank with agenda := [wr .cmd 0x17, .unit] }, rfl, rfl, by decide⟩,
    ⟨{ blank with agenda := [wr .cmd 0x00, .unit] }, rfl, rfl, by decide⟩,
    ⟨{ blank with agenda := [wr .cmd 0x08, .unit] }, rfl, rfl, by decide⟩⟩

theorem test_witness_WaitEndsAfterCompletion :
    (running [.wait]).phase = .busy ∧ (running [.wait]).agenda = .wait :: [] := by decide

theorem test_witness_CmdWriteStartsOrOverruns : blank.phase = .idle ∧ (running []).phase = .busy := by decide

theorem test_witness_OperandRegistersHoldWhatIsWritten :
    blank.phase = .idle ∧ (Reg.srcAddr, 0x08) ∈ operandOffsets ∧ (Reg.arg1, 0x1C) ∈ operandOffsets := by decide

theorem test_witness_WritesWhileBusyAreDropped :
    (running []).phase = .busy ∧ (Reg.cmd, 0x00) ∈ (Reg.cmd, 0x00) :: operandOffsets ∧
      (Reg.arg1, 0x1C) ∈ (Reg.cmd, 0x00) :: operandOffsets ∧
      (0x28 ≤ (0x28 : BitVec 8).toNat ∧ (0x28 : BitVec 8).toNat % 4 = 0) := by decide

/-- The first and the last row of R23's table. -/
theorem test_witness_RegisterReadsHaveNoSideEffect :
    (Reg.cmd, 0x00, (6 : Word)) ∈ windowRows (running []) ∧ (Reg.res1, 0x24, (0 : Word)) ∈ windowRows (running []) := by decide

theorem test_witness_ReservedOffsetsReadZero :
    (0x28 ≤ (0x28 : BitVec 8).toNat ∧ (0x28 : BitVec 8).toNat % 4 = 0) ∧
    (0x28 ≤ (0xFC : BitVec 8).toNat ∧ (0xFC : BitVec 8).toNat % 4 = 0) := by decide

/-- Three bytes at an aligned offset, four bytes at an unaligned one, and a legal access. -/
theorem test_witness_NarrowOrUnalignedAccessIsRefused :
    ¬(([1, 2, 3] : List Byte).length = 4 ∧ (0x00 : BitVec 8).toNat % 4 = 0) ∧
    ¬(([1, 2, 3, 4] : List Byte).length = 4 ∧ (0x02 : BitVec 8).toNat % 4 = 0) ∧
    ¬((2 : Nat) = 4 ∧ (0x04 : BitVec 8).toNat % 4 = 0) ∧
    (([1, 2, 3, 4] : List Byte).length = 4 ∧ (0xFC : BitVec 8).toNat % 4 = 0) := by decide

/-- The last two bytes of buffer memory while IDLE; a byte just past the destination extent while BUSY; nothing at all. -/
theorem test_witness_HostWriteStoresItsBytes :
    ((0xFFE : Word).toNat + ([1, 2] : List Byte).length ≤ blank.memSize.val ∧ blank.writeHazard ⟨0xFFE, 2⟩ = false) ∧
    ((0x204 : Word).toNat + ([1] : List Byte).length ≤ (running []).memSize.val ∧ (running []).writeHazard ⟨0x204, 1⟩ = false) ∧
    (([] : List Byte) = [] ∧ (running []).writeHazard ⟨0x200, 0⟩ = false) := by decide

/-- The last source byte and the last destination byte are hazards; the bytes after them, and the same bytes while IDLE, are
not. -/
theorem test_witness_HostWriteToRunningExtentFaults :
    ((0x103 : Word).toNat + 1 ≤ (running []).memSize.val ∧ decode (running []).cmd = .ok .dpcmDec16) ∧
    (srcExtent .dpcmDec16 (running [])).has 0x103 = true ∧ (running []).dstExtent.has 0x203 = true ∧
    (srcExtent .dpcmDec16 (running [])).has 0x104 = false ∧ (running []).dstExtent.has 0x104 = false ∧
    (running []).dstExtent.has 0x204 = false ∧ ((running []).phase = .busy ∧ blank.phase = .idle) := by decide

theorem test_witness_HostAccessBeyondMemoryIsRefused :
    (([1, 2] : List Byte) ≠ [] ∧ blank.memSize.val < (0xFFF : Word).toNat + ([1, 2] : List Byte).length) ∧
    ((1 : Nat) ≠ 0 ∧ blank.memSize.val < (0x1000 : Word).toNat + 1) := by decide

/-- A read across the start of the destination extent of a running command; the same read while IDLE; a read of no byte. -/
theorem test_witness_HostReadReturnsBytesOrDraws :
    ((0x1FF : Word).toNat + 2 ≤ (running []).memSize.val ∧ (running []).phase = .busy ∧
      (running []).dstExtent.has (0x1FF + 0) = false ∧ (running []).dstExtent.has (0x1FF + 1) = true) ∧
    ((0xFFF : Word).toNat + 1 ≤ blank.memSize.val ∧ blank.phase = .idle) := by decide

theorem test_witness_ResetClearsRegistersAndKeepsMemory :
    ((running [.reset]).agenda = .reset :: [] ∧ (running [.reset]).phase = .busy ∧ (running [.reset]).dstExtent.has 0x200 = true ∧
      0x200 < (running [.reset]).memSize.val ∧ (running [.reset]).dstExtent.has 0x204 = false) ∧
    (({ blank with agenda := [.reset] } : State).agenda = .reset :: [] ∧ blank.phase = .idle) := by decide

/-- V50: the destination ends one element past MEM_SIZE; a source in the same place; ENV.EXPAND with a count its check lets pass. -/
theorem test_witness_ExtentOutOfRangeGivesAddrRange :
    (∃ s : State, s.dstExtent.inRange s.memSize.val = false ∧ (srcExtent .dpcmDec16 s).inRange s.memSize.val = true) ∧
    (∃ s : State, (srcExtent .dpcmDec16 s).inRange s.memSize.val = false) ∧
    (∃ s : State, 2 ≤ s.arg0.toNat ∧ s.arg0.toNat ≤ 12 ∧ (srcExtent .envExpand s).inRange s.memSize.val = false) :=
  ⟨⟨asking [] 0x100 0 0xFFC 8 4 0, by decide, by decide⟩, ⟨asking [] 0xFFC 0 0x100 8 4 0, by decide⟩,
    ⟨asking [] 0xFFC 0 0x100 8 2 0, by decide, by decide, by decide⟩⟩

/-- V51, and ENV.EXPAND with a count its check lets pass. -/
theorem test_witness_OverlappingExtentsGiveOverlap :
    ((srcExtent .dpcmDec16 (asking [] 0x100 0 0x104 8 4 0)).inRange 0x1000 = true ∧
      (asking [] 0x100 0 0x104 8 4 0).dstExtent.inRange 0x1000 = true ∧
      (srcExtent .dpcmDec16 (asking [] 0x100 0 0x104 8 4 0)).overlaps (asking [] 0x100 0 0x104 8 4 0).dstExtent = true) ∧
    (2 ≤ (asking [] 0x100 0 0x107 8 2 0).arg0.toNat ∧ (asking [] 0x100 0 0x107 8 2 0).arg0.toNat ≤ 12 ∧
      (srcExtent .envExpand (asking [] 0x100 0 0x107 8 2 0)).inRange 0x1000 = true ∧
      (asking [] 0x100 0 0x107 8 2 0).dstExtent.inRange 0x1000 = true ∧
      (srcExtent .envExpand (asking [] 0x100 0 0x107 8 2 0)).overlaps (asking [] 0x100 0 0x107 8 2 0).dstExtent = true) := by
  decide

/-- The three extent checks of a command, at once. -/
theorem extentsGood_of (i : Instr) (s : State) (h : extentFailure? s (srcExtent i s) = none) : ExtentsGood i s :=
  (extentFailure?_eq_none i s).1 h

/-- V14: cell 0 needs byte 4 and L = 4. -/
theorem test_witness_CellUnpackReportsTruncation :
    ∃ s : State, ExtentsGood .cellUnpack s ∧ 0 < s.arg0.toNat * s.arg1.toNat ∧ cursor (streamByte s) 0 ≤ s.srcLen.toNat ∧
      s.srcLen.toNat < cursor (streamByte s) 1 :=
  ⟨asking [0x31, 0x01, 0x02, 0x03] 0x100 4 0x200 100 1 1, extentsGood_of _ _ (by decide), by decide, by decide, by decide⟩

/-- V18: two cells of one byte each and L = 3. -/
theorem test_witness_CellUnpackReportsLeftoverBytes :
    ∃ s : State, ExtentsGood .cellUnpack s ∧ cursor (streamByte s) (s.arg0.toNat * s.arg1.toNat) < s.srcLen.toNat :=
  ⟨asking [0x80, 0x80, 0x00] 0x100 3 0x200 100 1 2, extentsGood_of _ _ (by decide), by decide⟩

/-- V2, at both ends of the range. -/
theorem test_witness_EnvCountOutsideRangeIsRejected :
    (asking [] 0 0 0 0 1 0).arg0.toNat < 2 ∧ 12 < (asking [] 0 0 0 0 13 0).arg0.toNat := by decide

/-- V44. -/
theorem test_witness_EnvReportsFirstDisorder :
    ∃ s : State, 2 ≤ s.arg0.toNat ∧ s.arg0.toNat ≤ 12 ∧ ExtentsGood .envExpand s ∧ 1 + 1 < s.arg0.toNat ∧
      pointX s (1 + 1) ≤ pointX s 1 ∧ ∀ j, j < 1 → pointX s j < pointX s (j + 1) := by
  refine ⟨asking [0, 0, 0, 0, 2, 0, 0, 0, 1, 0, 0, 0] 0x100 0 0x200 100 3 0, by decide, by decide,
    extentsGood_of _ _ (by decide), by decide, by decide, ?_⟩
  intro j hj
  have : j = 0 := by omega
  subst this
  decide

/-- V32, V19b and V20c with CAP = 5; V45 for the envelope. -/
theorem test_witness_OutputBeyondCapacityOverflows :
    (∃ s : State, ExtentsGood .dpcmDec16 s ∧ DataGood .dpcmDec16 s ∧ s.dstCap.toNat < outputSize .dpcmDec16 s) ∧
    (∃ s : State, ExtentsGood .cellUnpack s ∧ DataGood .cellUnpack s ∧ s.dstCap.toNat < outputSize .cellUnpack s) ∧
    (∃ s : State, ExtentsGood .cellPack s ∧ DataGood .cellPack s ∧ s.dstCap.toNat < outputSize .cellPack s) ∧
    (∃ s : State, ExtentsGood .envExpand s ∧ DataGood .envExpand s ∧ s.dstCap.toNat < outputSize .envExpand s) := by
  refine ⟨⟨asking [0x05, 0x00, 0xFE, 0xFF] 0x100 0 0x200 3 2 0, extentsGood_of _ _ (by decide), trivial, by decide⟩,
    ⟨asking [0x80] 0x100 1 0x200 5 1 1, extentsGood_of _ _ (by decide), by unfold DataGood; decide, by decide⟩,
    ⟨asking [0x80, 0x31, 0x02, 0x40, 0x0F, 0x06] 0x100 0 0x200 5 1 1, extentsGood_of _ _ (by decide), trivial, by decide⟩,
    ⟨asking [0, 0, 0, 0, 4, 0, 0x40, 0, 8, 0, 0, 0] 0x100 0 0x200 19 3 0, extentsGood_of _ _ (by decide),
      ⟨by decide, by decide, ?_⟩, by decide⟩⟩
  intro k hk
  have hk' : k + 1 < 3 := hk
  obtain rfl | rfl : k = 0 ∨ k = 1 := by omega
  · decide
  · decide

/-- V10, and V19a: no cell and no byte. -/
theorem test_witness_CellUnpackWritesTheDecodedCells :
    (∃ s : State, ExtentsGood .cellUnpack s ∧ cursor (streamByte s) (s.arg0.toNat * s.arg1.toNat) = s.srcLen.toNat ∧
      0 < s.arg0.toNat * s.arg1.toNat ∧ 6 * (s.arg0.toNat * s.arg1.toNat) ≤ s.dstCap.toNat) ∧
    (∃ s : State, ExtentsGood .cellUnpack s ∧ cursor (streamByte s) (s.arg0.toNat * s.arg1.toNat) = s.srcLen.toNat ∧
      6 * (s.arg0.toNat * s.arg1.toNat) ≤ s.dstCap.toNat ∧ s.arg0 = 0) :=
  ⟨⟨asking [0x83, 0x31, 0x02] 0x100 3 0x200 6 1 1, extentsGood_of _ _ (by decide), by decide, by decide, by decide⟩,
    ⟨asking [] 0x100 0 0x200 0 0 4, extentsGood_of _ _ (by decide), by decide, by decide, by decide⟩⟩

/-- V20c with CAP = 6. -/
theorem test_witness_CellPackWritesThePackedCells :
    ∃ s : State, ExtentsGood .cellPack s ∧ packOffset s (s.arg0.toNat * s.arg1.toNat) ≤ s.dstCap.toNat ∧
      0 < (packCell (sourceCell s 0)).length :=
  ⟨asking [0x80, 0x31, 0x02, 0x40, 0x0F, 0x06] 0x100 0 0x200 6 1 1, extentsGood_of _ _ (by decide), by decide, by decide⟩

/-- V28; V33: no sample. -/
theorem test_witness_DpcmEnc8WritesTheDeltas :
    (∃ s : State, ExtentsGood .dpcmEnc8 s ∧ s.arg0.toNat ≤ s.dstCap.toNat ∧ s.arg0 = 4) ∧
    (∃ s : State, ExtentsGood .dpcmEnc8 s ∧ s.arg0.toNat ≤ s.dstCap.toNat ∧ s.arg0 = 0) :=
  ⟨⟨asking [0x34, 0x12, 0xCC, 0xED, 0x80, 0xFF, 0xFF, 0x7F] 0x100 0 0x200 4 4 0, extentsGood_of _ _ (by decide), by decide, rfl⟩,
    ⟨asking [] 0x100 0 0x200 0 0 0, extentsGood_of _ _ (by decide), by decide, rfl⟩⟩

/-- V34. -/
theorem test_witness_DpcmEnc16WritesTheDeltas :
    ∃ s : State, ExtentsGood .dpcmEnc16 s ∧ 2 * s.arg0.toNat ≤ s.dstCap.toNat ∧ s.arg0 = 3 :=
  ⟨asking [0x00, 0x00, 0xFF, 0x7F, 0x00, 0x80] 0x100 0 0x200 6 3 0, extentsGood_of _ _ (by decide), by decide, rfl⟩

/-- V30. -/
theorem test_witness_DpcmDec8WritesTheWidenedSums :
    ∃ s : State, ExtentsGood .dpcmDec8 s ∧ 2 * s.arg0.toNat ≤ s.dstCap.toNat ∧ s.arg0 = 3 :=
  ⟨asking [0x9C, 0x7F, 0x80] 0x100 0 0x200 6 3 0, extentsGood_of _ _ (by decide), by decide, rfl⟩

/-- V52: adjacent extents. -/
theorem test_witness_DpcmDec16WritesTheSums :
    ∃ s : State, ExtentsGood .dpcmDec16 s ∧ 2 * s.arg0.toNat ≤ s.dstCap.toNat ∧ s.arg0 = 4 :=
  ⟨asking [0xFF, 0x7F, 1, 0, 0xFF, 0xFF, 0, 0x80] 0x100 0 0x108 8 4 0, extentsGood_of _ _ (by decide), by decide, rfl⟩

/-- V41: (0,65535), (1,0). -/
theorem test_witness_EnvExpandWritesTheTable :
    ∃ s : State, 2 ≤ s.arg0.toNat ∧ s.arg0.toNat ≤ 12 ∧ ExtentsGood .envExpand s ∧ Increasing s ∧
      2 * tableLength s ≤ s.dstCap.toNat ∧ 0 + 1 < s.arg0.toNat ∧ 1 ≤ pointX s (0 + 1) - pointX s 0 := by
  refine ⟨asking [0, 0, 0xFF, 0xFF, 1, 0, 0, 0] 0x100 0 0x200 4 2 0, by decide, by decide, extentsGood_of _ _ (by decide), ?_,
    by decide, by decide, by decide⟩
  intro k hk
  have hk' : k + 1 < 2 := hk
  obtain rfl : k = 0 := by omega
  decide

theorem test_witness_ArithmeticPrimitivesAreExact :
    0 < 8 ∧ (3 : Int) ≠ 0 ∧ (0 : Int) ≤ (-7) * (-3) ∧ (-7) * (3 : Int) ≤ 0 ∧ InWidth 8 (-128) ∧ InWidth 16 32767 := by
  unfold InWidth; decide

/-- V20g for the legacy form, V20d for the other. -/
theorem test_witness_PackedCellForms :
    (∃ c : Cell, c.instrument = 0 ∧ c.volume = 0 ∧ c.fxtype = 0 ∧ c.fxparam = 0) ∧
    (∃ c : Cell, ¬(c.instrument = 0 ∧ c.volume = 0 ∧ c.fxtype = 0 ∧ c.fxparam = 0)) :=
  ⟨⟨⟨0x00, 0x61, 0, 0, 0, 0⟩, by decide⟩, ⟨⟨0x80, 0, 0, 0x10, 0, 0⟩, by decide⟩⟩

/-- The boundary note with every other field 0, and V20c. -/
theorem test_witness_PackedCellUnpacksToItsFields :
    RoundTrips ⟨0x00, 0x7F, 0, 0, 0, 0⟩ ∧ RoundTrips ⟨0x80, 0x31, 0x02, 0x40, 0x0F, 0x06⟩ := by
  unfold RoundTrips; decide

/-- V20h and V20i. -/
theorem test_witness_HighNoteLegacyCellIsLost :
    (∃ c : Cell, 0x80 ≤ c.note.toNat ∧ c.instrument = 0 ∧ c.volume = 0 ∧ c.fxtype = 0 ∧ c.fxparam = 0 ∧ c.note = 0x80) ∧
    (∃ c : Cell, 0x80 ≤ c.note.toNat ∧ c.instrument = 0 ∧ c.volume = 0 ∧ c.fxtype = 0 ∧ c.fxparam = 0 ∧ c.note = 0xFF) :=
  ⟨⟨⟨0x00, 0x80, 0, 0, 0, 0⟩, by decide⟩, ⟨⟨0x00, 0xFF, 0, 0, 0, 0⟩, by decide⟩⟩

/-- V20c packed to 0x200 and asked for again. -/
theorem test_witness_PackThenUnpackGivesTheFieldsBack :
    ∃ s t u : State, exec .cellPack s = .next t ∧ t.code = .ok ∧ 0 < s.arg0.toNat * s.arg1.toNat ∧
      (∀ k, k < s.arg0.toNat * s.arg1.toNat → RoundTrips (sourceCell s k)) ∧ (∀ a, u.mem.read a = t.mem.read a) ∧
      u.srcAddr = s.dstAddr ∧ u.srcLen = t.res0 ∧ u.arg0 = s.arg0 ∧ u.arg1 = s.arg1 ∧ ExtentsGood .cellUnpack u ∧
      6 * (s.arg0.toNat * s.arg1.toNat) ≤ u.dstCap.toNat := by
  let s := asking [0x80, 0x31, 0x02, 0x40, 0x0F, 0x06] 0x100 0 0x200 6 1 1
  let t := complete s (cellPackResult s)
  refine ⟨s, t, { t with srcAddr := 0x200, srcLen := t.res0, dstAddr := 0x300 }, rfl, by decide, by decide, ?_, fun _ => rfl,
    rfl, rfl, rfl, rfl, extentsGood_of _ _ (by decide), by decide⟩
  intro k hk
  have hk' : k < 1 := hk
  obtain rfl : k = 0 := by omega
  unfold RoundTrips
  decide

/-- V23: a clamp. -/
theorem test_witness_DpcmEncoderIsClosedLoop :
    (8 = 8 ∨ 8 = 16) ∧ (∀ v ∈ ([-128, 127] : List Int), InWidth 8 v) ∧ (dpcmEncode 8 [-128, 127]).errors ≠ 0 := by
  unfold InWidth; decide

/-- V26: no clamp. -/
theorem test_witness_DpcmLosslessExactlyWithoutClamps :
    (16 = 8 ∨ 16 = 16) ∧ (∀ v ∈ ([100, -200, 300] : List Int), InWidth 16 v) ∧ (dpcmEncode 16 [100, -200, 300]).errors = 0 := by
  unfold InWidth; decide

/-- V29 and its decoding. -/
theorem test_witness_Dec16AfterEnc16ReturnsTheSamples :
    ∃ s t u : State, exec .dpcmEnc16 s = .next t ∧ t.code = .ok ∧ t.res0 = 0 ∧ (∀ a, u.mem.read a = t.mem.read a) ∧
      u.srcAddr = s.dstAddr ∧ u.arg0 = s.arg0 ∧ ExtentsGood .dpcmDec16 u ∧ 2 * s.arg0.toNat ≤ u.dstCap.toNat := by
  let s := asking [0x64, 0x00, 0x38, 0xFF, 0x2C, 0x01] 0x100 0 0x200 6 3 0
  let t := complete s (dpcmEnc16Result s)
  exact ⟨s, t, { t with srcAddr := 0x200, dstAddr := 0x300 }, rfl, by decide, by decide, fun _ => rfl, rfl, rfl,
    extentsGood_of _ _ (by decide), by decide⟩

/-- Two samples, 0x1234 and 0x10FF, and their decoding. -/
theorem test_witness_Dec8AfterEnc8ClearsTheLowBytes :
    ∃ s t u : State, exec .dpcmEnc8 s = .next t ∧ t.code = .ok ∧ t.res0 = 0 ∧ (∀ a, u.mem.read a = t.mem.read a) ∧
      u.srcAddr = s.dstAddr ∧ u.arg0 = s.arg0 ∧ ExtentsGood .dpcmDec8 u ∧ 2 * s.arg0.toNat ≤ u.dstCap.toNat := by
  let s := asking [0x34, 0x12, 0xFF, 0x10] 0x100 0 0x200 2 2 0
  let t := complete s (dpcmEnc8Result s)
  exact ⟨s, t, { t with srcAddr := 0x200, dstAddr := 0x300, dstCap := 4 }, rfl, by decide, by decide, fun _ => rfl, rfl, rfl,
    extentsGood_of _ _ (by decide), by decide⟩

/-- V37, and the longest segment (V42). -/
theorem test_witness_EnvTableLength :
    2 ≤ ([⟨10, 64⟩, ⟨15, 0⟩, ⟨16, 32⟩] : List Breakpoint).length ∧ ([⟨10, 64⟩, ⟨15, 0⟩, ⟨16, 32⟩] : List Breakpoint).length ≤ 12 ∧
      (∀ p ∈ ([⟨10, 64⟩, ⟨15, 0⟩, ⟨16, 32⟩] : List Breakpoint), p.x < 65536) ∧
      ([⟨10, 64⟩, ⟨15, 0⟩, ⟨16, 32⟩] : List Breakpoint).Pairwise (fun p q => p.x < q.x) ∧
      ([⟨0, 0⟩, ⟨65535, 65535⟩] : List Breakpoint).Pairwise (fun p q => p.x < q.x) := by decide

/-- V41: the whole range, descending. -/
theorem test_witness_EnvValuesStayBetweenBreakpoints :
    ∃ p q : Breakpoint, p.x < q.x ∧ p.y < 65536 ∧ q.y < 65536 ∧ (0 : Int) ∈ segment p q ∧ (65535 : Int) ∈ segment p q :=
  ⟨⟨0, 65535⟩, ⟨1, 0⟩, by decide⟩

/-- V40 (level), V1's first segment (ascending, no remainder) and V35 (ascending, a remainder). -/
theorem test_witness_EnvSegmentEndValue :
    (∃ p q : Breakpoint, p.x < q.x ∧ q.x < 65536 ∧ p.y < 65536 ∧ q.y < 65536 ∧ q.y ≤ p.y) ∧
    (∃ p q : Breakpoint, p.x < q.x ∧ q.x < 65536 ∧ p.y < 65536 ∧ q.y < 65536 ∧ p.y < q.y ∧
      (q.y - p.y) * 65536 % (q.x - p.x) = 0) ∧
    (∃ p q : Breakpoint, p.x < q.x ∧ q.x < 65536 ∧ p.y < 65536 ∧ q.y < 65536 ∧ p.y < q.y ∧
      (q.y - p.y) * 65536 % (q.x - p.x) ≠ 0) :=
  ⟨⟨⟨0, 5⟩, ⟨4, 5⟩, by decide⟩, ⟨⟨0, 0⟩, ⟨4, 64⟩, by decide⟩, ⟨⟨0, 0⟩, ⟨3, 1⟩, by decide⟩⟩

/-- V1: the breakpoint at tick 4 is written twice. -/
theorem test_witness_EnvBoundaryIsWrittenTwice :
    ∃ s t : State, exec .envExpand s = .next t ∧ t.code = .ok ∧ 0 < 1 ∧ 1 + 1 < s.arg0.toNat := by
  let s := asking [0, 0, 0, 0, 4, 0, 0x40, 0, 8, 0, 0, 0] 0x100 0 0x200 20 3 0
  exact ⟨s, complete s (envExpandResult s), rfl, by decide, by decide, by decide⟩

/-- A listed byte below MEM_SIZE, a running command and its step. -/
theorem test_witness_EveryStepKeepsInvariant : ∃ s t : State, s.Inv ∧ s.phase = .busy ∧ s.mem ≠ [] ∧ step s = .next t :=
  ⟨running [.unit], complete (running []) (dpcmDec16Result (running [])), ⟨by decide, by decide, by decide⟩, rfl, by decide, rfl⟩

/-- A write to CMD while BUSY. -/
theorem test_witness_OperandsAreLatchedWhileBusy :
    ∃ s t : State, s.phase = .busy ∧ step s = .next t ∧ t.phase = .busy :=
  ⟨running [wr .cmd 7], (running []).markOverrun, rfl, rfl, rfl⟩

/-- A completion, a reset and a start. -/
theorem test_witness_PhaseChangesOnlyByStartCompletionOrReset :
    (∃ s t : State, step s = .next t ∧ s.phase = .busy ∧ t.phase = .idle ∧ (nextMove s).1 = .unit) ∧
    (∃ s t : State, step s = .next t ∧ s.phase = .busy ∧ t.phase = .idle ∧ (nextMove s).1 = .reset) ∧
    (∃ s t : State, step s = .next t ∧ s.phase = .idle ∧ t.phase = .busy) :=
  ⟨⟨running [.unit], complete (running []) (dpcmDec16Result (running [])), rfl, rfl, by decide, rfl⟩,
    ⟨running [.reset], applyReset (running []), rfl, rfl, by decide, rfl⟩,
    ⟨{ blank with agenda := [wr .cmd 1] }, blank.start 1, rfl, rfl, rfl⟩⟩

theorem test_witness_NoCommandWritesItsSource :
    ∃ s t : State, exec .dpcmDec16 s = .next t ∧ t.code = .ok ∧ (srcExtent .dpcmDec16 s).has 0x103 = true :=
  ⟨running [], complete (running []) (dpcmDec16Result (running [])), rfl, by decide, by decide⟩

/-- The same command after a byte outside its extents, STATUS.OVERRUN and the pending inputs have changed. -/
theorem test_witness_CompletionDependsOnlyOnItsInputs :
    ∃ s s' t t' : State, SameInputs .dpcmDec16 s s' ∧ s' ≠ s ∧ exec .dpcmDec16 s = .next t ∧ exec .dpcmDec16 s' = .next t' ∧
      t.code = .ok := by
  let s := running []
  let s' := (s.withMem (s.mem.write 0x500 0xAA)).markOverrun
  refine ⟨s, s', complete s (dpcmDec16Result s), complete s' (dpcmDec16Result s'), ⟨⟨rfl, rfl, rfl, rfl, rfl, rfl, rfl⟩, rfl, ?_⟩,
    by decide, rfl, rfl, by decide⟩
  intro a ha
  have h : a ≠ 0x500 := by rintro rfl; revert ha; decide
  show (s.mem.write 0x500 0xAA).read a = s.mem.read a
  rw [Memory.read_write, if_neg h]

/-- A Host write to a byte outside the extents of a running command. -/
theorem test_witness_HostStepsDoNotChangeTheCompletion :
    ∃ s s' t : State, s.phase = .busy ∧ decode s.cmd = .ok .dpcmDec16 ∧ hostAccess (.memWrite 0x500 [0xAA]) s = .next s' ∧
      exec .dpcmDec16 s = .next t ∧ t.code = .ok :=
  ⟨running [], (running []).withMem ((running []).mem.write 0x500 0xAA), complete (running []) (dpcmDec16Result (running [])),
    rfl, by decide, rfl, rfl, by decide⟩

/-- Both sides occur: a safe step and the write R244 forbids. -/
theorem test_witness_MachineStopsOnlyOnHostBreach :
    SafeStep (running [.unit]) ∧ ¬SafeStep (running [memb 0x103 [0xAA]]) := by
  refine ⟨⟨_, rfl⟩, ?_⟩
  rintro ⟨t, h⟩
  have h' : step (running [memb 0x103 [0xAA]]) = .fault .hostWroteRunningExtent := rfl
  rw [h'] at h
  cases h

/-- A Host turn, a reset, the Unit's turn and a WAIT while IDLE, and an illegal word (V48) pending. -/
theorem test_witness_StepIsTheMoveOfTheAgentWhoseTurnItIs :
    (running [wr .cmd 7]).agenda = .host (.regWrite 0x00 [7, 0, 0, 0]) :: [] ∧ (running [.reset]).agenda = .reset :: [] ∧
    (blank.phase = .idle ∧ blank.agenda = []) ∧
    (({ blank with agenda := [.unit] } : State).phase = .idle ∧ ({ blank with agenda := [.unit] } : State).agenda = .unit :: []) ∧
    (({ blank with agenda := [.wait] } : State).phase = .idle ∧ ({ blank with agenda := [.wait] } : State).agenda = .wait :: []) ∧
    (({ running [.wait] with cmd := 8 } : State).phase = .busy ∧
      decode ({ running [.wait] with cmd := 8 } : State).cmd = .error .reservedOp) := by decide

/-- A command that completes OK and one that does not (V31, V32). -/
theorem test_witness_CommandsWriteAllOrNothing :
    (∃ s t : State, exec .dpcmDec16 s = .next t ∧ t.code = .ok ∧ 0 < outputSize .dpcmDec16 s) ∧
    (∃ s t : State, exec .dpcmDec16 s = .next t ∧ t.code ≠ .ok) := by
  let s := asking [0x05, 0x00, 0xFE, 0xFF] 0x100 0 0x200 3 2 0
  exact ⟨⟨running [], complete (running []) (dpcmDec16Result (running [])), rfl, by decide, by decide⟩,
    ⟨s, complete s (dpcmDec16Result s), rfl, by decide⟩⟩

/-- 60_exceptions.md R211: the codes in the order of its table. -/
theorem test_code_values :
    [Code.ok, .badOp, .addrRange, .overlap, .truncated, .corrupt, .envCount, .envOrder, .dstOverflow].map Code.bits =
      [0x0, 0x1, 0x2, 0x3, 0x4, 0x5, 0x6, 0x7, 0x8] := by decide

end Sys2Proof.Tests
end

section
/-! PROOFS of the family 00_scope.md: the arithmetic primitives (R8, R9, 41_dpcm.md R144), and whose move a step is (R6). -/

namespace Sys2Proof.Machine

/-! ## The arithmetic primitives -/

/-- R8: the pattern read back lies in [MIN_N, MAX_N]. At N = 0 too, where both ends are taken at 2^0. -/
theorem inWidth_wrapInt (n : Nat) (v : Int) : InWidth n (wrapInt n v) := by
  have hlo := BitVec.le_toInt (bitsOf n v)
  have hhi := BitVec.toInt_lt (x := bitsOf n v)
  simp only [InWidth, wrapInt, sext, minInt, maxInt, Nat.cast_pow, Nat.cast_ofNat]
  exact ⟨hlo, by omega⟩

/-- R8: wrapping changes an integer by a multiple of 2^N only. -/
theorem two_pow_dvd_wrapInt_sub (n : Nat) (v : Int) : ((2 ^ n : Nat) : Int) ∣ wrapInt n v - v := by
  rw [wrapInt, sext, bitsOf, BitVec.toInt_ofInt]
  exact Int.dvd_bmod_sub_self

/-- R9: the floor division of the model is Euclidean division, since a power of two is positive. -/
theorem asr_eq_ediv (a : Int) (k : Nat) : asr a k = a / ((2 ^ k : Nat) : Int) :=
  Int.fdiv_eq_ediv_of_nonneg a (Int.natCast_nonneg _)

/-- R9: `asr a k` is the floor of a / 2^k. -/
theorem asr_floor (a : Int) (k : Nat) :
    asr a k * ((2 ^ k : Nat) : Int) ≤ a ∧ a < (asr a k + 1) * ((2 ^ k : Nat) : Int) := by
  have hpos : (0 : Int) < ((2 ^ k : Nat) : Int) := Int.natCast_pos.mpr (Nat.two_pow_pos k)
  rw [asr_eq_ediv]
  exact ⟨Int.ediv_mul_le a hpos.ne', Int.lt_ediv_add_one_mul_self a hpos⟩

/-- R9: the quotient times the divisor is no further from zero than the dividend. -/
theorem abs_tdiv_mul_le (a b : Int) : |tdiv a b * b| ≤ |a| := by
  have hnat : (tdiv a b * b).natAbs ≤ a.natAbs := by
    rw [tdiv, Int.natAbs_mul, Int.natAbs_tdiv]
    exact Nat.div_mul_le_self _ _
  rw [Int.abs_eq_natAbs, Int.abs_eq_natAbs]
  exact_mod_cast hnat

/-- R9: what the quotient leaves over is the remainder of the magnitudes, so it is smaller than the divisor. -/
theorem abs_sub_tdiv_mul_lt (a b : Int) (hb : b ≠ 0) : |a - tdiv a b * b| < |b| := by
  have hrem : a - tdiv a b * b = a.tmod b := by rw [tdiv, Int.tmod_def, mul_comm]
  have hnat : (a.tmod b).natAbs < b.natAbs := by
    rw [Int.natAbs_tmod]
    exact Nat.mod_lt _ (Int.natAbs_pos.mpr hb)
  rw [hrem, Int.abs_eq_natAbs, Int.abs_eq_natAbs]
  exact_mod_cast hnat

/-- R9: the quotient of two integers of one sign is not negative. -/
theorem tdiv_nonneg_of_mul_nonneg (a b : Int) (h : 0 ≤ a * b) : 0 ≤ tdiv a b := by
  rcases mul_nonneg_iff.mp h with ⟨ha, hb⟩ | ⟨ha, hb⟩
  · exact Int.tdiv_nonneg ha hb
  · exact Int.tdiv_nonneg_of_nonpos_of_nonpos ha hb

/-- R9: the quotient of two integers of opposite signs is not positive, by negating the dividend. -/
theorem tdiv_nonpos_of_mul_nonpos (a b : Int) (h : a * b ≤ 0) : tdiv a b ≤ 0 := by
  have hneg : 0 ≤ tdiv (-a) b := tdiv_nonneg_of_mul_nonneg (-a) b (by rw [neg_mul]; omega)
  rw [tdiv, Int.neg_tdiv] at hneg
  rw [tdiv]
  omega

/-- 41_dpcm.md R140: the range of width 8 in numerals. -/
theorem inWidth_eight_iff (v : Int) : InWidth 8 v ↔ -128 ≤ v ∧ v ≤ 127 := Iff.rfl

/-- 41_dpcm.md R140: the range of width 16 in numerals. -/
theorem inWidth_sixteen_iff (v : Int) : InWidth 16 v ↔ -32768 ≤ v ∧ v ≤ 32767 := Iff.rfl

/-- R144: `narrow8` is the floor of v / 256. -/
theorem narrow8_eq_ediv (v : Int) : narrow8 v = v / 256 := asr_eq_ediv v 8

/-- R144: narrowing undoes widening, on every integer. -/
theorem narrow8_widen8 (v : Int) : narrow8 (widen8 v) = v := by
  rw [narrow8_eq_ediv, widen8]
  omega

/-- R144: a widened 8-bit value is a multiple of 256 in the 16-bit range. -/
theorem widen8_bounds (v : Int) (h : InWidth 8 v) : -32768 ≤ widen8 v ∧ widen8 v ≤ 32512 := by
  rw [inWidth_eight_iff] at h
  rw [widen8]
  omega

/-- R144: a narrowed 16-bit value is an 8-bit value. -/
theorem inWidth_narrow8 (v : Int) (h : InWidth 16 v) : InWidth 8 (narrow8 v) := by
  rw [inWidth_sixteen_iff] at h
  rw [inWidth_eight_iff, narrow8_eq_ediv]
  omega

/-- R144: narrowing rounds to the floor. -/
theorem narrow8_floor (v : Int) : 256 * narrow8 v ≤ v ∧ v < 256 * narrow8 v + 256 := by
  rw [narrow8_eq_ediv]
  omega

/-- Settles O39: each primitive by its own law above, for every width, shift and integer. -/
theorem arithmeticPrimitivesAreExact : Obligations.ArithmeticPrimitivesAreExact :=
  ⟨fun n v _ => ⟨(inWidth_wrapInt n v).1, (inWidth_wrapInt n v).2, two_pow_dvd_wrapInt_sub n v⟩,
    asr_floor,
    fun a b hb => ⟨abs_tdiv_mul_le a b, abs_sub_tdiv_mul_lt a b hb⟩,
    fun a b _ => tdiv_nonneg_of_mul_nonneg a b,
    fun a b _ => tdiv_nonpos_of_mul_nonpos a b,
    fun v hv => ⟨narrow8_widen8 v, widen8_bounds v hv⟩,
    fun v hv => ⟨inWidth_narrow8 v hv, narrow8_floor v⟩⟩

/-! ## Whose move a step is -/

/-! The Unit's turn by its phase (60_exceptions.md R213, R223). -/

theorem unitStep_idle (s : State) (hp : s.phase = .idle) : unitStep s = .next s := by
  simp only [unitStep, hp]

theorem unitStep_illegal (s : State) (e : Illegal) (hp : s.phase = .busy) (hd : decode s.cmd = .error e) :
    unitStep s = .next (completeBadOp s) := by
  simp only [unitStep, hp, fetch, hd]

/-! A step by the head of the pending inputs (LOG 1). -/

section
variable {s : State} {rest : List Event}

theorem step_host {a : HostAction} (h : s.agenda = .host a :: rest) : step s = hostAccess a (s.withAgenda rest) := by
  simp only [step, nextMove, h]

theorem step_reset (h : s.agenda = .reset :: rest) : step s = .next (applyReset (s.withAgenda rest)) := by
  simp only [step, nextMove, h]

theorem step_nothing_pending (h : s.agenda = []) : step s = unitStep s := by
  simp only [step, nextMove, h]

theorem step_unit (h : s.agenda = .unit :: rest) : step s = unitStep (s.withAgenda rest) := by
  simp only [step, nextMove, h]

/-- LOG 12: the poll that sees BUSY = 0 takes the WAIT off. -/
theorem step_wait_idle (hp : s.phase = .idle) (h : s.agenda = .wait :: rest) :
    step s = hostAccess pollStatus (s.withAgenda rest) := by
  simp [step, nextMove, h, s.busy_of_idle hp]

/-- LOG 12: while BUSY the WAIT stays pending and the Unit moves. -/
theorem step_wait_busy (hp : s.phase = .busy) (h : s.agenda = .wait :: rest) : step s = unitStep s := by
  simp [step, nextMove, h, s.busy_iff.mpr hp]

end

/-- Settles O60, by the head of the pending inputs and the phase. -/
theorem stepIsTheMoveOfTheAgentWhoseTurnItIs : Obligations.StepIsTheMoveOfTheAgentWhoseTurnItIs := by
  intro s rest
  refine ⟨fun _ => step_host, step_reset, fun hidle => ⟨fun h => ?_, fun h => ?_, step_wait_idle hidle⟩,
    fun e hbusy hbad => ⟨fun h => ?_, fun h => ?_, fun h => ?_⟩⟩
  · exact (step_nothing_pending h).trans (unitStep_idle s hidle)
  · exact (step_unit h).trans (unitStep_idle _ hidle)
  · exact (step_nothing_pending h).trans (unitStep_illegal s e hbusy hbad)
  · exact (step_unit h).trans (unitStep_illegal _ e hbusy hbad)
  · exact (step_wait_busy hbusy h).trans (unitStep_illegal s e hbusy hbad)

end Sys2Proof.Machine
end

section
/-! PROOFS of the family 10_state.md: the register window (R23 to R37), the phase (R20, R36, R40) and the invariant (R25, R38). -/

namespace Sys2Proof.Machine

/-! ## Every step keeps the invariant -/

/-! Each move of the machine keeps `State.Inv`: those that leave buffer memory alone, and those that store a block of it. -/

section
variable {s : State}

/-- What the invariant speaks of: buffer memory, MEM_SIZE, and DONE while BUSY. -/
theorem State.Inv.of_mem_eq (hs : s.Inv) {t : State} (hm : t.mem = s.mem) (hz : t.memSize = s.memSize)
    (hd : t.phase = .busy → t.done = false) : t.Inv :=
  ⟨by rw [hm]; exact hs.memWf, by rw [hm, hz]; exact hs.memBelow, hd⟩

theorem State.Inv.withAgenda (hs : s.Inv) (es : List Event) : (s.withAgenda es).Inv := hs.of_mem_eq rfl rfl hs.busyNotDone

theorem State.Inv.deliver (hs : s.Inv) (bs : List Byte) : (s.deliver bs).Inv := hs.of_mem_eq rfl rfl hs.busyNotDone

theorem State.Inv.drawn (hs : s.Inv) (n : Nat) : (s.drawn n).Inv := hs.of_mem_eq rfl rfl hs.busyNotDone

theorem State.Inv.clearRegs (hs : s.Inv) : s.clearRegs.Inv := hs.of_mem_eq rfl rfl fun _ => rfl

/-- R25: a write to STATUS can only clear DONE. -/
theorem State.Inv.clearFlags (hs : s.Inv) (v : Word) : (s.clearFlags v).Inv :=
  hs.of_mem_eq rfl rfl fun hb => by simp [hs.busyNotDone hb]

/-- A block stored inside buffer memory. -/
theorem State.Inv.store (hs : s.Inv) (a : Nat) (bs : List Byte) (h : bs = [] ∨ a + bs.length ≤ s.memSize.val) :
    (s.withMem (s.mem.writeBytes a bs)).Inv :=
  ⟨Memory.wf_writeBytes _ _ _ hs.memWf, Memory.below_writeBytes _ _ _ _ h hs.memBelow, hs.busyNotDone⟩

theorem State.Inv.writeOffset (hs : s.Inv) (o : BitVec 8) (v : Word) : (s.writeOffset o v).Inv := by
  rcases writeOffset_cases s o v with e | e | ⟨_, e⟩ | ⟨_, _, e⟩ | ⟨_, _, _, _, _, _, _, e⟩ <;> rw [e]
  · exact hs
  · exact hs.clearFlags v
  · exact hs.of_mem_eq rfl rfl hs.busyNotDone
  · exact hs.of_mem_eq rfl rfl fun _ => rfl
  · exact hs.of_mem_eq rfl rfl hs.busyNotDone

/-- R233, LOG 14: a Host write that goes on lies in buffer memory, so every Host access keeps the invariant. -/
theorem State.Inv.hostAccess (hs : s.Inv) {a : HostAction} {t : State} (h : hostAccess a s = .next t) : t.Inv := by
  rcases hostAccess_cases a s t h with
    ⟨o, _, v, _, _, _, rfl⟩ | ⟨_, _, _, _, rfl⟩ | ⟨addr, data, _, hr, _, rfl⟩ | ⟨_, _, _, _, rfl⟩
  · exact hs.writeOffset o v
  · exact hs.deliver _
  · refine hs.store _ _ ?_
    rw [Extent.inRange_iff] at hr
    exact hr.imp_left List.length_eq_zero_iff.mp
  · exact (hs.deliver _).drawn _

/-- The next state of a command is its completion. -/
theorem eq_complete_of_exec {i : Instr} {t : State} (h : exec i s = .next t) : t = complete s (completionOf i s) :=
  Host.Outcome.next.inj (h.symm.trans (exec_eq i s))

@[simp] theorem Completion.output_success (r0 : Nat) (r1 : Int) (out : List Byte) : (Completion.success r0 r1 out).output = out :=
  rfl

@[simp] theorem Completion.output_failure (c : Code) (r0 : Nat) (r1 : Int) : (Completion.failure c r0 r1).output = [] := rfl

theorem dstExtent_inRange_iff (s : State) (size : Nat) :
    s.dstExtent.inRange size = true ↔ s.capacity = 0 ∨ s.dstAddr.toNat + s.capacity ≤ size := Extent.inRange_iff _ _

/-- 60_exceptions.md R212, R221: a command writes nothing, or an output that fits a destination extent in range. -/
theorem completionOf_output_inRange (i : Instr) (s : State) :
    (completionOf i s).output = [] ∨ s.dstAddr.toNat + (completionOf i s).output.length ≤ s.memSize.val := by
  rcases completionOf_spec i s with ⟨c, r0, r1, _, hfail, _⟩ | ⟨r0, r1, out, hok, hlen, ⟨_, hdst, _⟩, _, hcap⟩
  · left; rw [hfail, Completion.output_failure]
  · rw [hok, Completion.output_success, ← List.length_eq_zero_iff]
    rw [dstExtent_inRange_iff] at hdst
    omega

theorem State.Inv.completeBadOp (hs : s.Inv) : (completeBadOp s).Inv := complete_inv s _ hs (.inl rfl)

/-- 70_reset_and_hazards.md R241, LOG 10: the draws of an abandoned command stop at MEM_SIZE. -/
theorem State.Inv.scrambleDst (hs : s.Inv) : s.scrambleDst.Inv := by
  refine (hs.store _ _ ?_).drawn _
  rw [← List.length_eq_zero_iff, List.length_map, List.length_range, State.dstBytes]
  omega

theorem State.Inv.applyReset (hs : s.Inv) : (applyReset s).Inv := by
  rw [Machine.applyReset]
  split
  · exact hs.scrambleDst.clearRegs
  · exact hs.clearRegs

end

/-- Settles O53, by the cases of a step. -/
theorem everyStepKeepsInvariant : Obligations.EveryStepKeepsInvariant := by
  intro s t hs h
  obtain ⟨es, _, hstep⟩ := step_cases s t h
  have hu := hs.withAgenda es
  rcases hstep with ⟨_, _, rfl⟩ | ⟨i, _, _, _, hexec⟩ | ⟨_, _, _, _, rfl⟩ | ⟨a, _, hacc⟩ | ⟨_, rfl⟩
  · exact ⟨hu, rfl⟩
  · rw [eq_complete_of_exec hexec]
    exact ⟨complete_inv _ _ hu (completionOf_output_inRange i _), complete_memSize _ _⟩
  · exact ⟨hu.completeBadOp, rfl⟩
  · exact ⟨hu.hostAccess hacc, hostAccess_memSize a (s.withAgenda es) t hacc⟩
  · exact ⟨hu.applyReset, applyReset_memSize _⟩

/-- Settles O52: nothing is written at reset, and the phase is IDLE. -/
theorem resetSatisfiesInvariant : Obligations.ResetSatisfiesInvariant := ⟨rfl, rfl, fun _ => rfl⟩

/-! ## The phase and the latched operands -/

/-- R36: a command ends IDLE with DONE set. -/
theorem exec_completes {i : Instr} {s t : State} (h : exec i s = .next t) : t.phase = .idle ∧ t.done = true := by
  rw [eq_complete_of_exec h]
  exact ⟨complete_phase _ _, complete_done _ _⟩

/-- R37, R36: the ways a step leaves a BUSY state. -/
theorem step_busy_cases {s t : State} (hb : s.phase = .busy) (h : step s = .next t) :
    ((nextMove s).1 = .unit ∧ t.phase = .idle ∧ t.done = true) ∨
    (∃ a es, (nextMove s).1 = .host a ∧ hostAccess a (s.withAgenda es) = .next t) ∨
    ((nextMove s).1 = .reset ∧ t.phase = .idle) := by
  obtain ⟨es, _, hstep⟩ := step_cases s t h
  rcases hstep with ⟨_, hi, _⟩ | ⟨i, hm, _, _, hexec⟩ | ⟨_, hm, _, _, rfl⟩ | ⟨a, hm, hacc⟩ | ⟨hm, rfl⟩
  · rw [hb] at hi; cases hi
  · exact .inl ⟨hm, exec_completes hexec⟩
  · exact .inl ⟨hm, rfl, rfl⟩
  · exact .inr (.inl ⟨a, es, hm, hacc⟩)
  · exact .inr (.inr ⟨hm, applyReset_phase _⟩)

/-- R24: a Host access that starts a command is a write to CMD, and clears DONE. -/
theorem hostAccess_starts {a : HostAction} {s t : State} (hi : s.phase = .idle) (h : hostAccess a s = .next t)
    (hb : t.phase = .busy) : t.done = false ∧ ∃ data, a = .regWrite 0x00 data := by
  rcases hostAccess_cases a s t h with
    ⟨o, data, v, rfl, _, _, rfl⟩ | ⟨_, _, _, _, rfl⟩ | ⟨_, _, _, _, _, rfl⟩ | ⟨_, _, _, _, rfl⟩
  · rcases writeOffset_cases s o v with e | e | ⟨hs, _⟩ | ⟨_, rfl, e⟩ | ⟨_, _, _, _, _, _, _, e⟩
    · rw [e] at hb; exact absurd (hi.symm.trans hb) (by decide)
    · rw [e] at hb; exact absurd (hi.symm.trans hb) (by decide)
    · rw [hi] at hs; cases hs
    · rw [e]; exact ⟨rfl, data, rfl⟩
    · rw [e] at hb; exact absurd (hi.symm.trans hb) (by decide)
  all_goals exact absurd (hi.symm.trans hb) (by decide)

/-- Settles O54: of the steps from BUSY only a Host access stays BUSY, and it keeps what the command runs on. -/
theorem operandsAreLatchedWhileBusy : Obligations.OperandsAreLatchedWhileBusy := by
  intro s t hb h hb'
  rcases step_busy_cases hb h with ⟨_, hi, _⟩ | ⟨a, es, _, hacc⟩ | ⟨_, hi⟩
  · rw [hb'] at hi; cases hi
  · obtain ⟨_, hops, h0, h1, hcode, _⟩ := hostAccess_busy a (s.withAgenda es) t hb hacc
    exact ⟨hops, h0, h1, hcode⟩
  · rw [hb'] at hi; cases hi

/-- Settles O55, by the phase the step begins in. -/
theorem phaseChangesOnlyByStartCompletionOrReset : Obligations.PhaseChangesOnlyByStartCompletionOrReset := by
  intro s t h
  constructor
  · intro hb hi
    rcases step_busy_cases hb h with ⟨hm, _, hd⟩ | ⟨a, es, _, hacc⟩ | ⟨hm, _⟩
    · exact .inr ⟨hm, hd⟩
    · have hb' := (hostAccess_busy a (s.withAgenda es) t hb hacc).1
      rw [hi] at hb'; cases hb'
    · exact .inl hm
  · intro hi hb
    obtain ⟨es, _, hstep⟩ := step_cases s t h
    rcases hstep with ⟨_, _, rfl⟩ | ⟨_, _, hs, _⟩ | ⟨_, _, hs, _⟩ | ⟨a, hm, hacc⟩ | ⟨_, rfl⟩
    · exact absurd (hi.symm.trans hb) (by decide)
    · rw [hi] at hs; cases hs
    · rw [hi] at hs; cases hs
    · obtain ⟨hd, data, rfl⟩ := hostAccess_starts (s := s.withAgenda es) hi hacc hb
      exact ⟨hd, data, hm⟩
    · rw [applyReset_phase] at hb; cases hb

/-! ## STATUS -/

/-- R25: STATUS bit by bit: BUSY, DONE, OVERRUN, the reserved bits 7:3, CODE from bit 8 up. -/
theorem getLsbD_statusWord (s : State) (i : Nat) :
    s.statusWord.getLsbD i = if i = 0 then s.busy else if i = 1 then s.done else if i = 2 then s.overrun
      else if i < 8 then false else s.code.bits.getLsbD (i - 8) := by
  simp only [State.statusWord, BitVec.getLsbD_append]
  match i with
  | 0 => simp
  | 1 => simp
  | 2 => simp
  | i + 3 =>
    by_cases h8 : i + 3 < 8
    · have h5 : i < 5 := by omega
      simp [h8, h5]
    · have h5 : ¬ i < 5 := by omega
      by_cases h12 : i - 5 < 4
      · simp [h8, h5, h12]
      · have hcode : s.code.bits.getLsbD (i - 5) = false := BitVec.getLsbD_of_ge _ _ (by omega)
        simp [h8, h5, h12, hcode]

@[simp] theorem State.markOverrun_busy (s : State) : s.markOverrun.busy = s.busy := rfl
@[simp] theorem State.clearFlags_busy (s : State) (v : Word) : (s.clearFlags v).busy = s.busy := rfl

/-- R37: an ignored configuration write shows as bit 2. -/
theorem statusWord_markOverrun (s : State) : s.markOverrun.statusWord = s.statusWord ||| 0x00000004 := by
  have hmask : (0x00000004 : Word) = BitVec.twoPow 32 2 := rfl
  apply BitVec.eq_of_getLsbD_eq
  intro i hi
  rw [hmask, BitVec.getLsbD_or, BitVec.getLsbD_twoPow, getLsbD_statusWord, getLsbD_statusWord]
  by_cases h2 : i = 2
  · simp [h2]
  · simp [h2, Ne.symm h2]

/-- R25: a write to STATUS clears bits 1 and 2 where it has a 1. -/
theorem statusWord_clearFlags (s : State) (v : Word) :
    (s.clearFlags v).statusWord = s.statusWord &&& ~~~(v &&& 0x00000006) := by
  have hmask : (0x00000006 : Word) = BitVec.twoPow 32 1 ||| BitVec.twoPow 32 2 := rfl
  apply BitVec.eq_of_getLsbD_eq
  intro i hi
  rw [hmask, BitVec.getLsbD_and, BitVec.getLsbD_not, BitVec.getLsbD_and, BitVec.getLsbD_or, BitVec.getLsbD_twoPow,
    BitVec.getLsbD_twoPow, getLsbD_statusWord, getLsbD_statusWord]
  by_cases h1 : i = 1
  · simp [h1]
  · by_cases h2 : i = 2
    · simp [h2]
    · simp [h1, h2, Ne.symm h1, Ne.symm h2, hi]

/-- R25: bits 11:8 are CODE. -/
theorem statusWord_code (s : State) : s.statusWord.extractLsb' 8 4 = s.code.bits := by
  apply BitVec.eq_of_getLsbD_eq
  intro i hi
  have h1 : 8 + i ≠ 1 := by omega
  have h2 : 8 + i ≠ 2 := by omega
  simp [getLsbD_statusWord, hi, h1, h2]

/-- R25: bits 7:3 are reserved. -/
theorem statusWord_reserved_low (s : State) : s.statusWord.extractLsb' 3 5 = 0 := by
  apply BitVec.eq_of_getLsbD_eq
  intro i hi
  have h1 : 3 + i ≠ 1 := by omega
  have h2 : 3 + i ≠ 2 := by omega
  have h8 : 3 + i < 8 := by omega
  simp [getLsbD_statusWord, h1, h2, h8]

/-- R25: bits 31:12 are reserved. -/
theorem statusWord_reserved_high (s : State) : s.statusWord.extractLsb' 12 20 = 0 := by
  apply BitVec.eq_of_getLsbD_eq
  intro i hi
  have h1 : 12 + i ≠ 1 := by omega
  have h2 : 12 + i ≠ 2 := by omega
  have h8 : ¬ 12 + i < 8 := by omega
  have hcode : s.code.bits.getLsbD (12 + i - 8) = false := BitVec.getLsbD_of_ge _ _ (by omega)
  simp [getLsbD_statusWord, h1, h2, h8, hcode]

/-- 60_exceptions.md R211: the codes in the order of their values. -/
def Code.table : List Code :=
  [.ok, .badOp, .addrRange, .overlap, .truncated, .corrupt, .envCount, .envOrder, .dstOverflow]

theorem Code.table_bits (c : Code) : Code.table[c.bits.toNat]? = some c := by cases c <;> rfl

/-- Two codes with one value stand at one place of the table. -/
theorem Code.bits_injective : Function.Injective Code.bits := by
  intro c d h
  rw [← Option.some.injEq, ← Code.table_bits c, ← Code.table_bits d, h]

theorem Code.bits_le (c : Code) : c.bits.toNat ≤ 8 := by cases c <;> decide

theorem code_eq_iff_statusWord (s : State) (c : Code) : s.code = c ↔ s.statusWord.extractLsb' 8 4 = c.bits := by
  rw [statusWord_code, Code.bits_injective.eq_iff]

/-- Settles O11: STATUS field by field. -/
theorem statusShowsItsFields : Obligations.StatusShowsItsFields := fun s =>
  ⟨by rw [getLsbD_statusWord]; exact s.busy_iff, getLsbD_statusWord s 1, getLsbD_statusWord s 2, statusWord_code s,
    s.code.bits_le, statusWord_reserved_low s, statusWord_reserved_high s, code_eq_iff_statusWord s .ok,
    code_eq_iff_statusWord s .badOp, code_eq_iff_statusWord s .addrRange, code_eq_iff_statusWord s .overlap,
    code_eq_iff_statusWord s .truncated, code_eq_iff_statusWord s .corrupt, code_eq_iff_statusWord s .envCount,
    code_eq_iff_statusWord s .envOrder, code_eq_iff_statusWord s .dstOverflow⟩

/-! ## Writes to the register window -/

/-! What each update of the state leaves the registers as. -/

theorem readReg_markOverrun (s : State) (r : Reg) (h : r ≠ .status) : s.markOverrun.readReg r = s.readReg r := by
  cases r
  case status => exact absurd rfl h
  all_goals rfl

theorem readReg_clearFlags (s : State) (v : Word) (r : Reg) (h : r ≠ .status) : (s.clearFlags v).readReg r = s.readReg r := by
  cases r
  case status => exact absurd rfl h
  all_goals rfl

theorem readReg_start (s : State) (v : Word) (r : Reg) (hc : r ≠ .cmd) (h : r ≠ .status) :
    (s.start v).readReg r = s.readReg r := by
  cases r
  case cmd => exact absurd rfl hc
  case status => exact absurd rfl h
  all_goals rfl

/-- The operand registers (R26 to R31). -/
def Reg.isOperand : Reg → Bool
  | .srcAddr | .srcLen | .dstAddr | .dstCap | .arg0 | .arg1 => true
  | .cmd | .status | .res0 | .res1 => false

/-- R23: the table lists the operand registers at their offsets. -/
theorem mem_operandOffsets_iff (r : Reg) (o : BitVec 8) : (r, o) ∈ operandOffsets ↔ r.isOperand = true ∧ o = r.offset := by
  cases r <;> simp [operandOffsets, Reg.isOperand, Reg.offset]

/-- R37: while BUSY a configuration write only sets OVERRUN. -/
theorem writeReg_busy (s : State) (v : Word) (r : Reg) (hb : s.phase = .busy) (hr : r = .cmd ∨ r.isOperand = true) :
    s.writeReg v r = s.markOverrun := by
  cases r
  case status | res0 | res1 => simp [Reg.isOperand] at hr
  all_goals exact configWrite_busy s _ hb

/-- R26 to R31: while IDLE an operand register takes the value written, and every other register stays. -/
theorem readReg_writeReg_operand (s : State) (v : Word) (r q : Reg) (hi : s.phase = .idle) (hr : r.isOperand = true) :
    (s.writeReg v r).readReg q = if q = r then v else s.readReg q := by
  cases r
  case cmd | status | res0 | res1 => simp [Reg.isOperand] at hr
  all_goals
    rw [State.writeReg, configWrite_idle s _ hi]
    cases q <;> rfl

/-- The same write leaves the phase, buffer memory and MEM_SIZE. -/
theorem writeReg_operand_frame (s : State) (v : Word) (r : Reg) (hi : s.phase = .idle) (hr : r.isOperand = true) :
    (s.writeReg v r).phase = s.phase ∧ (s.writeReg v r).mem = s.mem ∧ (s.writeReg v r).memSize = s.memSize := by
  cases r
  case cmd | status | res0 | res1 => simp [Reg.isOperand] at hr
  all_goals rw [State.writeReg, configWrite_idle s _ hi]; exact ⟨rfl, rfl, rfl⟩

@[simp] theorem readOffset_offset (s : State) (r : Reg) : s.readOffset r.offset = s.readReg r := by
  rw [State.readOffset, Reg.atOffset?_offset]

theorem readOffset_reserved (s : State) (o : BitVec 8) (h : 0x28 ≤ o.toNat) : s.readOffset o = 0 := by
  rw [State.readOffset, Reg.atOffset?_reserved o h]

theorem writeOffset_reserved (s : State) (o : BitVec 8) (v : Word) (h : 0x28 ≤ o.toNat) : s.writeOffset o v = s := by
  rw [State.writeOffset, Reg.atOffset?_reserved o h]

/-- R34: a write to a reserved offset is ignored. -/
theorem hostAccess_regWrite_reserved (s : State) (o : BitVec 8) (v : Word) (h : 0x28 ≤ o.toNat) (h4 : o.toNat % 4 = 0) :
    hostAccess (.regWrite o (wordBytes v)) s = .next s := by
  rw [hostAccess_regWrite o v s h4, writeOffset_reserved s o v h]

/-- Settles O7, by the phase. -/
theorem cmdWriteStartsOrOverruns : Obligations.CmdWriteStartsOrOverruns := by
  intro s w
  have hw : hostAccess (.regWrite 0x00 (wordBytes w)) s = .next (s.writeReg w .cmd) := hostAccess_writeReg .cmd w s
  constructor
  · intro hi
    rw [State.writeReg, configWrite_idle s _ hi] at hw
    exact ⟨_, hw, rfl, rfl, getLsbD_statusWord _ 0, getLsbD_statusWord _ 1, fun r hc hst => readReg_start s w r hc hst⟩
  · intro hb
    rw [writeReg_busy s w .cmd hb (.inl rfl)] at hw
    exact ⟨_, hw, rfl, rfl, rfl, hb, rfl, statusWord_markOverrun s, readReg_markOverrun s⟩

/-- Settles O8: what each register reads as after the write, and the frame. -/
theorem operandRegistersHoldWhatIsWritten : Obligations.OperandRegistersHoldWhatIsWritten := by
  intro s r o w hi ho
  obtain ⟨hr, rfl⟩ := (mem_operandOffsets_iff r o).mp ho
  obtain ⟨hp, hm, hz⟩ := writeReg_operand_frame s w r hi hr
  have hread : (s.writeReg w r).readReg r = w := by rw [readReg_writeReg_operand s w r r hi hr, if_pos rfl]
  refine ⟨_, hostAccess_writeReg r w s, hread, (readOffset_offset _ r).trans hread, fun q hq => ?_, hp.trans hi, hm, hz⟩
  rw [readReg_writeReg_operand s w r q hi hr, if_neg hq]

/-- Settles O9: while BUSY every configuration write only sets OVERRUN; the other offsets ignore writes in either phase. -/
theorem writesWhileBusyAreDropped : Obligations.WritesWhileBusyAreDropped := by
  intro s w
  refine ⟨fun hb r o ho => ?_, hostAccess_writeReg .res0 w s, hostAccess_writeReg .res1 w s,
    fun o => hostAccess_regWrite_reserved s o w⟩
  have hr : (r = .cmd ∨ r.isOperand = true) ∧ o = r.offset := by
    rcases List.mem_cons.mp ho with h | h
    · obtain ⟨rfl, rfl⟩ := Prod.mk.inj h
      exact ⟨.inl rfl, rfl⟩
    · obtain ⟨hop, hoff⟩ := (mem_operandOffsets_iff r o).mp h
      exact ⟨.inr hop, hoff⟩
  obtain ⟨hr, rfl⟩ := hr
  have hw := hostAccess_writeReg r w s
  rw [writeReg_busy s w r hb hr] at hw
  exact ⟨_, hw, rfl, readReg_markOverrun s, ⟨rfl, rfl, rfl, rfl, rfl, rfl, rfl⟩, hb, rfl, rfl, rfl, rfl, rfl⟩

/-- Settles O10: the write is `clearFlags`, in either phase. -/
theorem statusWriteClearsDoneAndOverrun : Obligations.StatusWriteClearsDoneAndOverrun := fun s w =>
  ⟨s.clearFlags w, hostAccess_writeReg .status w s, statusWord_clearFlags s w, rfl, rfl, readReg_clearFlags s w, rfl⟩

/-! ## Reads of the register window, and its widths -/

/-- Settles O12: no register stands at a reserved offset. -/
theorem reservedOffsetsReadZero : Obligations.ReservedOffsetsReadZero := by
  intro s o w ho h4
  refine ⟨?_, hostAccess_regWrite_reserved s o w ho h4⟩
  rw [hostAccess_regRead o s h4, readOffset_reserved s o ho]
  rfl

/-- 20_memory.md R51: a word is its four bus bytes, the least significant first. -/
theorem append_wordBytes (w : Word) :
    w = w.extractLsb' 24 8 ++ w.extractLsb' 16 8 ++ w.extractLsb' 8 8 ++ w.extractLsb' 0 8 :=
  (Option.some.inj (wordOf?_wordBytes w)).symm

/-- R23: the table lists every register at its offset with the word it holds. -/
theorem mem_windowRows_iff (s : State) (r : Reg) (o : BitVec 8) (v : Word) :
    (r, o, v) ∈ windowRows s ↔ o = r.offset ∧ v = s.readReg r := by
  cases r <;> simp [windowRows, Reg.offset, State.readReg]

/-- Settles O13, by the table's rows. -/
theorem registerReadsHaveNoSideEffect : Obligations.RegisterReadsHaveNoSideEffect := by
  intro s r o v hrow
  obtain ⟨rfl, rfl⟩ := (mem_windowRows_iff s r o v).mp hrow
  exact ⟨rfl, readOffset_offset s r, _, _, _, _, append_wordBytes _, hostAccess_readReg r s⟩

/-- Four bytes are a word, so a write of legal width and offset goes on. -/
theorem hostAccess_regWrite_legal (s : State) (o : BitVec 8) (data : List Byte) (h : windowAccessLegal o data.length = true) :
    ∃ t, hostAccess (.regWrite o data) s = .next t := by
  obtain ⟨w, hw⟩ := wordOf?_of_length data ((windowAccessLegal_iff o _).mp h).1
  exact ⟨s.writeOffset o w, by simp only [hostAccess, h, if_true, hw]⟩

theorem hostAccess_regWrite_illegal (s : State) (o : BitVec 8) (data : List Byte) (h : ¬ windowAccessLegal o data.length = true) :
    hostAccess (.regWrite o data) s = .refused .windowAccess := by
  simp only [hostAccess, if_neg h]

theorem hostAccess_regRead_illegal (s : State) (o : BitVec 8) (width : Nat) (h : ¬ windowAccessLegal o width = true) :
    hostAccess (.regRead o width) s = .refused .windowAccess := by
  simp only [hostAccess, if_neg h]

/-- An outcome that is a next state under a condition, and a refusal without it, is a next state exactly under it. -/
theorem iff_exists_next_of_refused {p : Prop} {x : Host.Outcome State Fault Refusal} {r : Refusal}
    (hgo : p → ∃ t, x = .next t) (hstop : ¬p → x = .refused r) : p ↔ ∃ t, x = .next t := by
  refine ⟨hgo, fun ⟨t, ht⟩ => ?_⟩
  by_contra hp
  cases ht.symm.trans (hstop hp)

/-- Settles O14: a legal access goes on, every other one is refused. -/
theorem narrowOrUnalignedAccessIsRefused : Obligations.NarrowOrUnalignedAccessIsRefused := by
  intro s o
  simp only [← windowAccessLegal_iff]
  have hwrite := hostAccess_regWrite_illegal s o
  have hread := hostAccess_regRead_illegal s o
  refine ⟨fun data => iff_exists_next_of_refused (hostAccess_regWrite_legal s o data) (hwrite data), hwrite,
    fun width => iff_exists_next_of_refused (fun h => ?_) (hread width), hread⟩
  obtain ⟨rfl, h4⟩ := (windowAccessLegal_iff o width).mp h
  exact ⟨_, hostAccess_regRead o s h4⟩

/-! ## The reset state -/

/-- Settles O19: reset is a state whose registers have been cleared. -/
theorem resetStateReadsZero : Obligations.ResetStateReadsZero := by
  have hreg : ∀ r, State.reset.readReg r = 0 := clearRegs_readReg State.reset
  refine ⟨rfl, rfl, rfl, rfl, hreg, fun o => ?_, fun _ => rfl⟩
  rw [State.readOffset]
  split
  · exact hreg _
  · rfl

end Sys2Proof.Machine
end

section
/-! PROOFS of the family 20_memory.md: extents (R54, R55) and what a Host write stores (R50, R60). -/

namespace Sys2Proof.Machine

/-! ## Extents -/

/-- An extent begins with a byte of its own, unless it is empty. -/
theorem Extent.has_addr (e : Extent) (h : 0 < e.len) : e.has e.addr = true :=
  (Extent.has_iff _ _).mpr ⟨le_refl _, Nat.lt_add_of_pos_right h⟩

/-- R54, byte by byte: the byte that decides is the last one, at `addr + len - 1`. -/
theorem Extent.inRange_iff_forall_has (size : Nat) (e : Extent) :
    e.inRange size = true ↔ ∀ a, e.has a = true → a < size := by
  simp only [Extent.inRange_iff, Extent.has_iff]
  constructor
  · omega
  · intro h
    have hlast := h (e.addr + e.len - 1)
    omega

/-- R55, byte by byte: of two extents that overlap, the one that begins later begins inside the other. -/
theorem Extent.overlaps_iff_exists_has (x y : Extent) :
    x.overlaps y = true ↔ ∃ a, x.has a = true ∧ y.has a = true := by
  constructor
  · intro h
    obtain ⟨hx, hy, hxy, hyx⟩ := (Extent.overlaps_iff x y).mp h
    rcases le_total x.addr y.addr with hle | hle
    · exact ⟨y.addr, (Extent.has_iff _ _).mpr ⟨hle, hyx⟩, y.has_addr hy⟩
    · exact ⟨x.addr, x.has_addr hx, (Extent.has_iff _ _).mpr ⟨hle, hxy⟩⟩
  · rintro ⟨a, hx, hy⟩
    by_contra h
    rw [x.not_has_both y (Bool.eq_false_iff.mpr h) a hx] at hy
    cases hy

/-- Settles O21: each rule by the ends of the extents and by their bytes. -/
theorem extentRangeAndOverlap : Obligations.ExtentRangeAndOverlap :=
  ⟨Extent.inRange_iff, Extent.inRange_iff_forall_has, Extent.overlaps_iff, Extent.overlaps_iff_exists_has⟩

/-! ## A Host write to buffer memory -/

/-- No register is held in buffer memory (10_state.md R20). -/
@[simp] theorem readReg_withMem (s : State) (m : Memory) (r : Reg) : (s.withMem m).readReg r = s.readReg r := by
  cases r <;> rfl

/-- R50: a Host write in range that no hazard forbids stores its block. -/
theorem hostAccess_memWrite (s : State) (addr : Word) (data : List Byte)
    (hr : Extent.inRange s.memSize.val ⟨addr.toNat, data.length⟩ = true)
    (hh : s.writeHazard ⟨addr.toNat, data.length⟩ = false) :
    hostAccess (.memWrite addr data) s = .next (s.withMem (s.mem.writeBytes addr.toNat data)) := by
  simp [hostAccess, zext, hr, hh]

/-- Settles O15: the next state has the block stored, and a stored block reads back and leaves the bytes outside it. -/
theorem hostWriteStoresItsBytes : Obligations.HostWriteStoresItsBytes := by
  intro s addr data hin hclear
  have hr : Extent.inRange s.memSize.val ⟨addr.toNat, data.length⟩ = true :=
    (Extent.inRange_iff _ _).mpr (hin.imp_left List.length_eq_zero_iff.mpr)
  exact ⟨_, hostAccess_memWrite s addr data hr hclear, fun i => Memory.read_writeBytes_at s.mem addr.toNat i data,
    fun a => Memory.read_writeBytes_outside s.mem addr.toNat a data, readReg_withMem s _, rfl, rfl⟩

end Sys2Proof.Machine
end

section
/-! PROOFS of the family 30_encoding.md: the decoder and the encoder (R70 to R74), and the end of a WAIT (R85). -/

namespace Sys2Proof

/-! ## The fields of a command word -/

namespace CommandWord

/-- R70: OP is the word modulo 16. -/
theorem op_toNat (w : Word) : (op w).toNat = w.toNat % 16 := by
  simp [op]

/-- R70: RSVD is the quotient of the word by 16. -/
theorem rsvd_toNat (w : Word) : (rsvd w).toNat = w.toNat / 16 := by
  have hw : w.toNat / 16 < 2 ^ 28 := by omega
  rw [rsvd, BitVec.extractLsb'_toNat, Nat.shiftRight_eq_div_pow]
  exact Nat.mod_eq_of_lt hw

theorem rsvdZero_iff (w : Word) : rsvdZero w = true ↔ w.toNat / 16 = 0 := by
  rw [rsvdZero, beq_iff_eq, ← BitVec.toNat_inj, rsvd_toNat]
  exact Iff.rfl

theorem opAssigned_iff (w : Word) :
    opAssigned w = true ↔ 1 ≤ (op w).toNat ∧ (op w).toNat ≤ 7 := decide_eq_true_iff

/-- R70: legality, by arithmetic on the word. -/
theorem legal_iff (w : Word) :
    legal w = true ↔ w.toNat / 16 = 0 ∧ 1 ≤ w.toNat % 16 ∧ w.toNat % 16 ≤ 7 := by
  rw [legal, Bool.and_eq_true, rsvdZero_iff, opAssigned_iff, op_toNat]

end CommandWord

/-! ## What the encoder and the decoder answer -/

/-- R71: the command words are the numbers 1 to 7. -/
theorem encode_bounds (i : Instr) : 1 ≤ (encode i).toNat ∧ (encode i).toNat ≤ 7 := by cases i <;> decide

/-- R71: every number from 1 to 7 is the word of a command. -/
theorem exists_encode_toNat (n : Nat) (hlo : 1 ≤ n) (hhi : n ≤ 7) : ∃ i, (encode i).toNat = n := by
  match n, hlo, hhi with
  | 1, _, _ => exact ⟨.cellUnpack, rfl⟩
  | 2, _, _ => exact ⟨.cellPack, rfl⟩
  | 3, _, _ => exact ⟨.dpcmEnc8, rfl⟩
  | 4, _, _ => exact ⟨.dpcmEnc16, rfl⟩
  | 5, _, _ => exact ⟨.dpcmDec8, rfl⟩
  | 6, _, _ => exact ⟨.dpcmDec16, rfl⟩
  | 7, _, _ => exact ⟨.envExpand, rfl⟩

/-- R71: an operation code selects a command exactly when it is the number of that command's word. -/
theorem decodeOp_eq_ok_iff (op : BitVec 4) (i : Instr) : decodeOp op = .ok i ↔ op.toNat = (encode i).toNat := by
  constructor
  · intro h
    rw [decodeOp] at h
    split at h
    case h_8 => cases h
    all_goals cases h; assumption
  · intro h
    rw [decodeOp, h]
    cases i <;> rfl

/-- R74: a word decodes to a command exactly when RSVD is 0 and OP selects it. -/
theorem decode_eq_ok_iff (w : Word) (i : Instr) :
    decode w = .ok i ↔ CommandWord.rsvdZero w = true ∧ decodeOp (CommandWord.op w) = .ok i := by
  rw [decode]
  split
  · next h => exact (and_iff_right h).symm
  · next h => exact ⟨(nomatch ·), fun ⟨hz, _⟩ => absurd hz h⟩

/-- R74: a word decodes to a command exactly when it is that command's word: with RSVD = 0 the word is the number OP. -/
theorem decode_eq_ok_iff_eq_encode (w : Word) (i : Instr) : decode w = .ok i ↔ w = encode i := by
  rw [decode_eq_ok_iff, CommandWord.rsvdZero_iff, decodeOp_eq_ok_iff, CommandWord.op_toNat, ← BitVec.toNat_inj]
  have hi := encode_bounds i
  omega

/-- R70: the legal words are the words of the commands. -/
theorem exists_eq_encode_iff_legal (w : Word) : (∃ i, w = encode i) ↔ CommandWord.legal w = true := by
  rw [CommandWord.legal_iff]
  constructor
  · rintro ⟨i, rfl⟩
    have hi := encode_bounds i
    omega
  · rintro ⟨hrsvd, hlo, hhi⟩
    obtain ⟨i, hi⟩ := exists_encode_toNat (w.toNat % 16) hlo hhi
    exact ⟨i, BitVec.eq_of_toNat_eq (by omega)⟩

/-- R72: a word is rejected exactly when it decodes to no command. -/
theorem exists_decode_error_iff (w : Word) : (∃ e, decode w = .error e) ↔ ¬∃ i, decode w = .ok i := by
  cases decode w <;> simp

/-- Settles O3: legality by arithmetic, and each command's word as the one word that decodes to it. -/
theorem everyWordIsOneCommandOrIllegal : Obligations.EveryWordIsOneCommandOrIllegal := by
  refine ⟨decode_eq_ok_iff_eq_encode, exists_eq_encode_iff_legal, CommandWord.legal_iff, fun w => ?_⟩
  simp only [exists_decode_error_iff, decode_eq_ok_iff_eq_encode, exists_eq_encode_iff_legal, Bool.not_eq_true]

/-- Settles O2, command by command. -/
theorem encodedCommandsDecodeBack : Obligations.EncodedCommandsDecodeBack
  | .cellUnpack => Laws.EncodeDecode.cellUnpack
  | .cellPack => Laws.EncodeDecode.cellPack
  | .dpcmEnc8 => Laws.EncodeDecode.dpcmEnc8
  | .dpcmEnc16 => Laws.EncodeDecode.dpcmEnc16
  | .dpcmDec8 => Laws.EncodeDecode.dpcmDec8
  | .dpcmDec16 => Laws.EncodeDecode.dpcmDec16
  | .envExpand => Laws.EncodeDecode.envExpand

/-- R71: the word of a command decodes to it. -/
theorem decode_encode (i : Instr) : decode (encode i) = .ok i := (decode_eq_ok_iff_eq_encode _ i).mpr rfl

/-- Settles O1: each word is the encoding of its row's command, and the bus bytes are those of the last word (R51). -/
theorem commandWordsDecode : Obligations.CommandWordsDecode :=
  ⟨decode_encode .cellUnpack, decode_encode .cellPack, decode_encode .dpcmEnc8, decode_encode .dpcmEnc16,
    decode_encode .dpcmDec8, decode_encode .dpcmDec16, decode_encode .envExpand, decode_encode .envExpand⟩

end Sys2Proof

namespace Sys2Proof.Machine

/-! ## The end of a WAIT -/

/-- 70_reset_and_hazards.md R243: while BUSY the Unit's step is a completion, whatever CMD holds. -/
theorem unitStep_busy (s : State) (hb : s.phase = .busy) : ∃ c, unitStep s = .next (complete s c) := by
  cases hd : decode s.cmd with
  | ok i => exact ⟨completionOf i s, by simp only [unitStep, hb, fetch, hd, exec_eq]⟩
  | error e => exact ⟨_, unitStep_illegal s e hb hd⟩

/-- R85: the poll of STATUS delivers STATUS, and changes nothing else. -/
theorem hostAccess_pollStatus (s : State) : hostAccess pollStatus s = .next (s.deliver (wordBytes s.statusWord)) :=
  hostAccess_readReg .status s

/-- Settles O6: the completion leaves the WAIT pending and IDLE with DONE set, which the poll then reads. -/
theorem waitEndsAfterCompletion : Obligations.WaitEndsAfterCompletion := by
  intro s rest hb hwait
  obtain ⟨c, hc⟩ := unitStep_busy s hb
  have hpending : (complete s c).agenda = .wait :: rest := (complete_agenda s c).trans hwait
  have hidle : (complete s c).phase = .idle := complete_phase s c
  have hdone : (complete s c).done = true := complete_done s c
  refine ⟨_, _, (step_wait_busy hb hwait).trans hc, (step_wait_idle hidle hpending).trans (hostAccess_pollStatus _),
    hidle, hdone, rfl, rfl, rfl, ?_, ?_⟩
  · exact (getLsbD_statusWord _ 0).trans (State.busy_of_idle _ hidle)
  · exact (getLsbD_statusWord _ 1).trans hdone

end Sys2Proof.Machine
end

section
/-! PROOFS of the family 40_pattern_cell.md: the packed forms of a cell (R104, R105), the round trip (R109, R110), and what the
two commands write (R103, R107). -/

namespace Sys2Proof.Machine

/-! ## The packed forms of a cell -/

theorem legacy_iff (c : Cell) :
    c.legacy = true ↔ c.instrument = 0 ∧ c.volume = 0 ∧ c.fxtype = 0 ∧ c.fxparam = 0 := by
  simp [Cell.legacy, and_assoc]

theorem packCell_legacy {c : Cell} (h : c.legacy = true) : packCell c = [c.note, 0x00, 0x00, 0x00, 0x00] := if_pos h

theorem packCell_compressed {c : Cell} (h : ¬c.legacy = true) :
    packCell c = packMask c :: c.fields.filter (fun f => f != 0) := if_neg h

/-- R104: bit k of the computed mask says whether field k is not 0. -/
theorem getLsbD_packMask (c : Cell) (k : Nat) (f : Byte) (h : c.fields[k]? = some f) :
    (packMask c).getLsbD k = (f != 0) := by
  simp only [packMask, BitVec.getLsbD_append]
  match k, h with
  | 0, rfl | 1, rfl | 2, rfl | 3, rfl | 4, rfl => simp

/-- R105: bit 7 marks the compressed form, and bits 6:5 are clear. -/
theorem packMask_fixed_bits (c : Cell) :
    (packMask c).getLsbD 7 = true ∧ (packMask c).getLsbD 6 = false ∧ (packMask c).getLsbD 5 = false := by
  simp only [packMask, BitVec.getLsbD_append]
  simp

/-- R104: the computed mask as a number, bit by bit. -/
theorem packMask_toNat (c : Cell) : (packMask c).toNat =
    128 + 16 * (c.fxparam != 0).toNat + 8 * (c.fxtype != 0).toNat + 4 * (c.volume != 0).toNat +
      2 * (c.instrument != 0).toNat + (c.note != 0).toNat := by
  rw [packMask]
  generalize (c.fxparam != 0) = b4, (c.fxtype != 0) = b3, (c.volume != 0) = b2, (c.instrument != 0) = b1, (c.note != 0) = b0
  revert b4 b3 b2 b1 b0
  decide

/-- The number of fields that are not 0. -/
theorem length_filter_fields (c : Cell) : (c.fields.filter (fun f => f != 0)).length =
    (c.note != 0).toNat + (c.instrument != 0).toNat + (c.volume != 0).toNat + (c.fxtype != 0).toNat + (c.fxparam != 0).toNat := by
  simp only [← List.countP_eq_length_filter, Cell.fields, List.countP_cons, List.countP_nil, Bool.toNat, Bool.cond_eq_ite]
  omega

/-- R83: the mask counts the bytes that follow it. -/
theorem bitsBelow_packMask (c : Cell) : bitsBelow (packMask c) 5 = (c.fields.filter (fun f => f != 0)).length := by
  rw [length_filter_fields]
  simp only [bitsBelow, getLsbD_packMask c 0 _ rfl, getLsbD_packMask c 1 _ rfl, getLsbD_packMask c 2 _ rfl,
    getLsbD_packMask c 3 _ rfl, getLsbD_packMask c 4 _ rfl, Bool.toNat, Bool.cond_eq_ite]
  omega

/-- R105: a cell in the compressed form has a non-note field that is not 0. -/
theorem nonNote_pos {c : Cell} (h : ¬c.legacy = true) :
    1 ≤ (c.instrument != 0).toNat + (c.volume != 0).toNat + (c.fxtype != 0).toNat + (c.fxparam != 0).toNat := by
  have hz : ∀ f : Byte, (f != 0).toNat = 0 → f = 0 := fun f hf => by simpa using hf
  by_contra hlt
  exact h ((legacy_iff c).mpr ⟨hz _ (by omega), hz _ (by omega), hz _ (by omega), hz _ (by omega)⟩)

theorem le_packMask {c : Cell} (h : ¬c.legacy = true) : 0x82 ≤ (packMask c).toNat := by
  have hpos := nonNote_pos h
  rw [packMask_toNat]
  omega

/-- R105: the fields that follow the mask. -/
theorem length_filter_fields_bounds {c : Cell} (h : ¬c.legacy = true) :
    1 ≤ (c.fields.filter (fun f => f != 0)).length ∧ (c.fields.filter (fun f => f != 0)).length ≤ 5 := by
  have hpos := nonNote_pos h
  refine ⟨?_, List.length_filter_le _ _⟩
  rw [length_filter_fields]
  omega

/-- R105: a packed cell takes 5 bytes in the legacy form, 2 to 6 in the compressed form. -/
theorem length_packCell_bounds (c : Cell) : 2 ≤ (packCell c).length ∧ (packCell c).length ≤ 6 := by
  by_cases h : c.legacy = true
  · rw [packCell_legacy h]
    exact ⟨by simp, by simp⟩
  · have hlen := length_filter_fields_bounds h
    rw [packCell_compressed h, List.length_cons]
    omega

theorem packOffset_bounds (s : State) (n : Nat) : 2 * n ≤ packOffset s n ∧ packOffset s n ≤ 6 * n := by
  induction n with
  | zero => exact ⟨le_refl _, le_refl _⟩
  | succ n ih =>
    have hlen := length_packCell_bounds (sourceCell s n)
    rw [packOffset]
    omega

/-- Settles O40: the two forms by their bytes and by the bits of the computed mask. -/
theorem packedCellForms : Obligations.PackedCellForms := by
  intro c
  rw [← legacy_iff]
  refine ⟨packCell_legacy, fun h => ?_, fun _ => rfl, packOffset_bounds⟩
  obtain ⟨hmin, hmax⟩ := length_filter_fields_bounds h
  obtain ⟨h7, h6, h5⟩ := packMask_fixed_bits c
  have hbit : ∀ k f, c.fields[k]? = some f → ((packMask c).getLsbD k = true ↔ f ≠ 0) := fun k f hf => by
    rw [getLsbD_packMask c k f hf, bne_iff_ne]
  exact ⟨_, _, packCell_compressed h, hmin, hmax, (bitsBelow_packMask c).symm, h7, h6, h5, le_packMask h, hbit 0 _ rfl,
    hbit 1 _ rfl, hbit 2 _ rfl, hbit 3 _ rfl, hbit 4 _ rfl, List.filter_congr fun f _ => by simp [bne, beq_eq_decide]⟩

/-! ## One cell there and back -/

/-- R101: the form of a cell is bit 7 of its first byte, which is that byte's highest. -/
theorem getLsbD_seven (b : Byte) : b.getLsbD 7 = decide (0x80 ≤ b.toNat) := BitVec.msb_eq_decide b

theorem unpackCell_compressed {m : Byte} (hm : m.getLsbD 7 = true) (stream : List Byte) :
    unpackCell (m :: stream) = takeFields m (m.extractLsb' 0 5) stream := by
  simp only [unpackCell, takeByte, hm, if_true]

theorem unpackCell_legacy {m : Byte} (hm : m.getLsbD 7 = false) (i v t p : Byte) (rest : List Byte) :
    unpackCell (m :: i :: v :: t :: p :: rest) = some (⟨m, m, i, v, t, p⟩, rest) := by
  simp only [unpackCell, takeByte, hm]
  rfl

/-- Each field that is not 0 stands next in the packed bytes, and a field that is 0 takes none: R101 reads back what R104
wrote. -/
theorem takeField_filter (f : Byte) (fs rest : List Byte) :
    takeField (f != 0) ((f :: fs).filter (fun g => g != 0) ++ rest) = some (f, fs.filter (fun g => g != 0) ++ rest) := by
  by_cases hf : f = 0
  · subst hf; rfl
  · have hp : (f != 0) = true := by simpa using hf
    rw [List.filter_cons, hp]
    rfl

/-- The five fields of a cell read back, given presence bits that say which are not 0. -/
theorem takeFields_filter (m : Byte) (present : BitVec 5) (c : Cell) (rest : List Byte)
    (hp : ∀ k f, c.fields[k]? = some f → present.getLsbD k = (f != 0)) :
    takeFields m present (c.fields.filter (fun f => f != 0) ++ rest) = some ({ c with mask := m }, rest) := by
  simp only [takeFields, Cell.fields, hp 0 _ rfl, hp 1 _ rfl, hp 2 _ rfl, hp 3 _ rfl, hp 4 _ rfl, takeField_filter,
    List.filter_nil, List.nil_append]

/-- What CELL.UNPACK makes of a packed cell: the five fields, under the first packed byte as the mask (R109). -/
def Cell.repacked (c : Cell) : Cell := { c with mask := if c.legacy then c.note else packMask c }

theorem sameFields_repacked (c : Cell) : SameFields c.repacked c := ⟨rfl, rfl, rfl, rfl, rfl⟩

theorem head?_packCell (c : Cell) : (packCell c).head? = some c.repacked.mask := by
  rw [packCell, Cell.repacked]
  split <;> rfl

/-- R109: the packed bytes of a cell that meets the round-trip condition unpack to its fields, leaving what follows. In the
legacy form the condition says that bit 7 of the note, which is the first byte, is clear. -/
theorem unpackCell_packCell {c : Cell} (h : RoundTrips c) (rest : List Byte) :
    unpackCell (packCell c ++ rest) = some (c.repacked, rest) := by
  by_cases hl : c.legacy = true
  · obtain ⟨hi, hv, ht, hp⟩ := (legacy_iff c).mp hl
    have hnote : c.note.toNat ≤ 0x7F := by simpa [RoundTrips, hi, hv, ht, hp] using h
    have h7 : c.note.getLsbD 7 = false := by rw [getLsbD_seven, decide_eq_false_iff_not]; omega
    rw [packCell_legacy hl, Cell.repacked, if_pos hl, hi, hv, ht, hp]
    exact unpackCell_legacy h7 0 0 0 0 rest
  · rw [packCell_compressed hl, Cell.repacked, if_neg hl, List.cons_append, unpackCell_compressed (packMask_fixed_bits c).1]
    refine takeFields_filter _ _ c rest fun k f hf => ?_
    have hk : k < 5 := (List.getElem?_eq_some_iff.mp hf).1
    simp [hk, getLsbD_packMask c k f hf]

/-- Settles O41: the cell that the packed bytes unpack to is `Cell.repacked`. -/
theorem packedCellUnpacksToItsFields : Obligations.PackedCellUnpacksToItsFields := fun c rest h =>
  ⟨c.repacked, unpackCell_packCell h rest, sameFields_repacked c, head?_packCell c⟩

/-! ## A high note with no other field -/

/-- The fields are read in order, the note first, under the mask that was given. -/
theorem takeFields_note {m : Byte} {present : BitVec 5} {stream rest : List Byte} {d : Cell}
    (h : takeFields m present stream = some (d, rest)) :
    d.mask = m ∧ ∃ r, takeField (present.getLsbD 0) stream = some (d.note, r) := by
  rw [takeFields] at h
  repeat' split at h
  all_goals cases h
  exact ⟨rfl, _, by assumption⟩

/-- From a stream that begins with 0 a field is 0, whether it is read or not. -/
theorem eq_zero_of_takeField_zero {present : Bool} {f : Byte} {stream rest : List Byte}
    (h : takeField present (0 :: stream) = some (f, rest)) : f = 0 := by
  cases present <;> cases h <;> rfl

/-- Settles O42: with bit 7 set the note reads as a mask, and a note read after it is one of the four zero bytes, or absent. -/
theorem highNoteLegacyCellIsLost : Obligations.HighNoteLegacyCellIsLost := by
  intro c hnote hi hv ht hp
  have hpack := packCell_legacy ((legacy_iff c).mpr ⟨hi, hv, ht, hp⟩)
  refine ⟨hpack, fun d rest h => ?_⟩
  have h7 : c.note.getLsbD 7 = true := by rw [getLsbD_seven, decide_eq_true_iff]; exact hnote
  rw [hpack, unpackCell_compressed h7] at h
  obtain ⟨hmask, r, hread⟩ := takeFields_note h
  refine ⟨fun heq => ?_, hmask⟩
  rw [← heq, eq_zero_of_takeField_zero hread] at hnote
  exact absurd hnote (by decide)

/-! ## What the commands write -/

/-- 30_encoding.md R77: record `k` of a stored matrix reads back as cell `k`. -/
theorem cellAt_writeBytes (m : Memory) (base : Nat) (cs : List Cell) (k : Nat) (hk : k < cs.length) :
    cellAt (m.writeBytes base (cs.flatMap Cell.bytes)) (base + 6 * k) = cs[k] := by
  have hread : ∀ f (hf : f < 6), (m.writeBytes base (cs.flatMap Cell.bytes)).read (base + 6 * k + f) = cs[k].bytes[f] := by
    intro f hf
    rw [Nat.add_assoc]
    exact (Memory.read_writeBytes_at _ _ _ _ _).trans (getElem_flatMap_cellBytes cs k f hk hf)
  rw [cellAt, hread 1 (by decide), hread 2 (by decide), hread 3 (by decide), hread 4 (by decide), hread 5 (by decide)]
  exact congrArg (Cell.mk · _ _ _ _ _) (hread 0 (by decide))

/-- R103: CELL.UNPACK with good extents, a stream that is exactly its cells, and room for the matrix. -/
theorem completionOf_cellUnpack {s : State} {out : List Cell} {rest : List Byte} (he : ExtentsGood .cellUnpack s)
    (hout : unpackStream s.cellCount (s.mem.readBytes s.srcBase s.declaredLen) = .cells out rest) (hrest : rest.length = 0)
    (hcap : 6 * s.cellCount ≤ s.capacity) :
    completionOf .cellUnpack s = .success s.declaredLen s.cellCount (out.flatMap Cell.bytes) := by
  rw [completionOf_good .cellUnpack s nofun he]
  simp only [bodyOf, cellUnpackBody, hout, if_pos hrest, if_neg (Nat.not_lt.mpr hcap)]

/-- R103: such a CELL.UNPACK writes the matrix of the cells that the stream holds, and nothing else. -/
theorem exec_cellUnpack {s : State} {out : List Cell} {rest : List Byte} (he : ExtentsGood .cellUnpack s)
    (hout : unpackStream s.cellCount (s.mem.readBytes s.srcBase s.declaredLen) = .cells out rest) (hrest : rest.length = 0)
    (hlen : out.length = s.cellCount) (hcap : 6 * s.cellCount ≤ s.capacity) :
    ∃ t, exec .cellUnpack s = .next t ∧ Finished t .ok s.declaredLen s.cellCount ∧ CommandFrame s t ∧
      MemoryKeptOutside s t s.dstAddr.toNat (6 * s.cellCount) ∧
      ∀ k (hk : k < out.length), cellAt t.mem (s.dstAddr.toNat + 6 * k) = out[k] := by
  obtain ⟨t, hexec, hfin, hframe, hkept, hmem⟩ := exec_success _ s _ _ _ (completionOf_cellUnpack he hout hrest hcap)
  rw [length_flatMap_cellBytes, hlen] at hkept
  refine ⟨t, hexec, hfin, hframe, hkept, fun k hk => ?_⟩
  rw [hmem, cellAt_writeBytes _ _ _ _ hk]

/-- R102: when the cells end exactly at L, the whole stream unpacks to them. -/
theorem unpackStream_of_cursor_eq {s : State} {n : Nat} (h : cursor (streamByte s) n = s.declaredLen) :
    ∃ rest, rest.length = 0 ∧ unpackStream n (s.mem.readBytes s.srcBase s.declaredLen) =
      .cells ((List.range n).map fun k => cellFrom (streamByte s) (cursor (streamByte s) k)) rest := by
  rcases unpackStream_command s n with ⟨_, hcells⟩ | ⟨j, hj, _, hbeyond, _⟩
  · exact ⟨_, by simp [h], hcells⟩
  · have hmono := cursor_mono (streamByte s) (j + 1) n hj
    omega

/-- Settles O32: the cells that the stream holds are those that R80 to R83 read from its bytes. -/
theorem cellUnpackWritesTheDecodedCells : Obligations.CellUnpackWritesTheDecodedCells := by
  intro s he hend hcap
  obtain ⟨rest, hrest, hcells⟩ := unpackStream_of_cursor_eq hend
  obtain ⟨t, hexec, hfin, hframe, hkept, hcell⟩ :=
    exec_cellUnpack he hcells hrest (by rw [List.length_map, List.length_range]; rfl) hcap
  refine ⟨t, hexec, hfin, hframe, hkept, fun k hk => ?_⟩
  have hk' := hcell k (by simpa using hk)
  rw [List.getElem_map, List.getElem_range] at hk'
  refine ⟨congrArg Cell.mask hk', fun f hf => ?_⟩
  match f, hf with
  | 0, _ => exact congrArg Cell.note hk'
  | 1, _ => exact congrArg Cell.instrument hk'
  | 2, _ => exact congrArg Cell.volume hk'
  | 3, _ => exact congrArg Cell.fxtype hk'
  | 4, _ => exact congrArg Cell.fxparam hk'

/-- R107: CELL.PACK with good extents and room for the packed bytes. -/
theorem completionOf_cellPack {s : State} (he : ExtentsGood .cellPack s) (hcap : packOffset s s.cellCount ≤ s.capacity) :
    completionOf .cellPack s =
      .success (packOffset s s.cellCount) s.cellCount (packStream (cellsAt s.mem s.srcBase s.cellCount)) := by
  rw [completionOf_good .cellPack s nofun he]
  simp only [bodyOf, cellPackBody, length_packStream, if_neg (Nat.not_lt.mpr hcap)]

/-- Settles O33: the output is the packed stream, and byte `p` of cell `k` stands at its offset plus `p`. -/
theorem cellPackWritesThePackedCells : Obligations.CellPackWritesThePackedCells := by
  intro s he hcap
  obtain ⟨t, hexec, hfin, hframe, hkept, hmem⟩ := exec_success _ s _ _ _ (completionOf_cellPack he hcap)
  rw [length_packStream] at hkept
  refine ⟨t, hexec, hfin, hframe, hkept, fun k hk p hp => ?_⟩
  obtain ⟨hlt, hbyte⟩ := getElem_packStream s k s.cellCount p hk hp
  rw [hmem, Nat.add_assoc, Memory.read_writeBytes_at _ _ _ _ hlt, hbyte]

/-! ## A whole matrix there and back -/

/-- R109 over a stream: the packed bytes of cells that all meet the round-trip condition unpack to their fields. -/
theorem unpackStream_packStream (cells : List Cell) (h : ∀ c ∈ cells, RoundTrips c) :
    unpackStream cells.length (packStream cells) = .cells (cells.map Cell.repacked) [] := by
  induction cells with
  | nil => rfl
  | cons c cells ih =>
    obtain ⟨hc, hcells⟩ := List.forall_mem_cons.mp h
    rw [packStream, List.flatMap_cons, List.length_cons, unpackStream, unpackCell_packCell hc, ← packStream]
    simp only [ih hcells, Unpacked.cons, List.map_cons]

/-- R221: CELL.PACK that ends with OK passed its checks, so its next state holds the packed bytes, and RES0 their number,
which DST_CAP bounds. -/
theorem cellPack_ok {s t : State} (h : exec .cellPack s = .next t) (hok : t.code = .ok) :
    t.res0.toNat = packOffset s s.cellCount ∧
      t.mem = s.mem.writeBytes s.dstAddr.toNat (packStream (cellsAt s.mem s.srcBase s.cellCount)) := by
  have ht := eq_complete_of_exec h
  rcases completionOf_spec .cellPack s with ⟨c, _, _, hc, hfail, _⟩ | ⟨_, _, _, _, _, he, _, hcap⟩
  · rw [ht, hfail] at hok
    exact absurd hok hc
  · have hcap' : packOffset s s.cellCount ≤ s.dstCap.toNat := hcap
    rw [completionOf_cellPack he hcap] at ht
    subst ht
    exact ⟨(BitVec.toNat_ofNat _ 32).trans (Nat.mod_eq_of_lt (by omega)), rfl⟩

theorem length_cellsAt (m : Memory) (base n : Nat) : (cellsAt m base n).length = n := by
  rw [cellsAt, List.length_map, List.length_range]

theorem getElem_cellsAt (m : Memory) (base n k : Nat) (h : k < (cellsAt m base n).length) :
    (cellsAt m base n)[k] = cellAt m (base + 6 * k) := by
  simp only [cellsAt, List.getElem_map, List.getElem_range]

/-- Settles O43: the stream that CELL.UNPACK reads is the one that CELL.PACK wrote, and it unpacks cell by cell. -/
theorem packThenUnpackGivesTheFieldsBack : Obligations.PackThenUnpackGivesTheFieldsBack := by
  intro s t u hpack hok hround hmem hsrc hlen harg0 harg1 he hcap
  obtain ⟨hres, htmem⟩ := cellPack_ok hpack hok
  have hcount : u.cellCount = s.cellCount := by rw [State.cellCount, State.cellCount, harg0, harg1]
  have hbase : u.srcBase = s.dstAddr.toNat := congrArg BitVec.toNat hsrc
  have hdecl : u.declaredLen = t.res0.toNat := congrArg BitVec.toNat hlen
  have hcells : (cellsAt s.mem s.srcBase s.cellCount).length = u.cellCount := by rw [length_cellsAt, hcount]
  have hstream : u.mem.readBytes u.srcBase u.declaredLen = packStream (cellsAt s.mem s.srcBase s.cellCount) := by
    rw [Memory.readBytes_congr t.mem u.mem _ _ fun i _ => hmem _, hbase, hdecl, hres, htmem, ← length_packStream,
      Memory.readBytes_writeBytes]
  have hout : unpackStream u.cellCount (u.mem.readBytes u.srcBase u.declaredLen) =
      .cells ((cellsAt s.mem s.srcBase s.cellCount).map Cell.repacked) [] := by
    rw [hstream, ← hcells]
    refine unpackStream_packStream _ fun c hc => ?_
    obtain ⟨k, hk, rfl⟩ := List.mem_map.mp hc
    exact hround k (List.mem_range.mp hk)
  obtain ⟨v, hexec, hfin, _, _, hcell⟩ :=
    exec_cellUnpack he hout rfl (by rw [List.length_map, hcells]) (by rw [hcount]; exact hcap)
  rw [hcount, hdecl] at hfin
  refine ⟨v, hexec, hfin, fun k hk => ?_⟩
  rw [hcell k (by rw [List.length_map, length_cellsAt]; exact hk), List.getElem_map, getElem_cellsAt]
  exact sameFields_repacked _

end Sys2Proof.Machine
end

section
/-! PROOFS of the family 41_dpcm.md: the closed loop (R143), the round trip (R149), and what the four commands write (R145 to
R148). The laws are proved of runs of the recurrences R141 and R142; the model's encoder and decoder are such runs. -/

namespace Sys2Proof.Machine

/-! ## The range of a width -/

theorem minInt_nonpos (N : Nat) : minInt N ≤ 0 := Int.neg_nonpos_of_nonneg (Int.natCast_nonneg _)

theorem maxInt_nonneg (N : Nat) : 0 ≤ maxInt N := by
  have hpos : 1 ≤ 2 ^ (N - 1) := Nat.one_le_two_pow
  simp only [maxInt]
  omega

/-- R140: the range of width N holds 2^N integers. -/
theorem maxInt_sub_minInt {N : Nat} (hN : 0 < N) : maxInt N - minInt N = ((2 ^ N : Nat) : Int) - 1 := by
  obtain ⟨k, rfl⟩ : ∃ k, N = k + 1 := ⟨N - 1, by omega⟩
  simp only [maxInt, minInt, Nat.add_sub_cancel, Nat.pow_succ]
  omega

/-- R8: an integer of the range is its own wrap. -/
theorem wrapInt_of_inWidth {N : Nat} (hN : 0 < N) {v : Int} (h : InWidth N v) : wrapInt N v = v := by
  obtain ⟨hlo, hhi⟩ := h
  simp only [minInt, maxInt, Nat.cast_pow, Nat.cast_ofNat] at hlo hhi
  exact BitVec.toInt_ofInt_eq_self hN hlo (by omega)

/-- R8: a pattern is the pattern of its two's-complement integer. -/
theorem bitsOf_sext {N : Nat} (b : BitVec N) : bitsOf N (sext b) = b := BitVec.ofInt_toInt

theorem inWidth_sext {N : Nat} (b : BitVec N) : InWidth N (sext b) := by
  have h := inWidth_wrapInt N (sext b)
  rwa [wrapInt, bitsOf_sext] at h

theorem clampInt_of_inWidth {N : Nat} {v : Int} (h : InWidth N v) : clampInt v (minInt N) (maxInt N) = v := by
  obtain ⟨hlo, hhi⟩ := h
  rw [clampInt, if_neg (not_lt.mpr hlo), if_neg (not_lt.mpr hhi)]

theorem clampInt_of_lt_minInt {N : Nat} {v : Int} (h : v < minInt N) : clampInt v (minInt N) (maxInt N) = minInt N := if_pos h

theorem clampInt_of_maxInt_lt {N : Nat} {v : Int} (h : maxInt N < v) : clampInt v (minInt N) (maxInt N) = maxInt N := by
  have hmin := minInt_nonpos N
  have hmax := maxInt_nonneg N
  rw [clampInt, if_neg (by omega), if_pos h]

/-- The three places of an integer about the range of width N. -/
theorem lt_minInt_or_inWidth_or_maxInt_lt (N : Nat) (v : Int) : v < minInt N ∨ InWidth N v ∨ maxInt N < v := by
  rw [InWidth]
  omega

theorem inWidth_clampInt (N : Nat) (v : Int) : InWidth N (clampInt v (minInt N) (maxInt N)) := by
  have hmin := minInt_nonpos N
  have hmax := maxInt_nonneg N
  rcases lt_minInt_or_inWidth_or_maxInt_lt N v with h | h | h
  · rw [clampInt_of_lt_minInt h]; exact ⟨le_refl _, by omega⟩
  · rwa [clampInt_of_inWidth h]
  · rw [clampInt_of_maxInt_lt h]; exact ⟨by omega, le_refl _⟩

/-- R143, step 3: from a value of the range, the clamped step towards another stays in the range, since it stops short of it. -/
theorem inWidth_add_clampInt {N : Nat} {a b : Int} (ha : InWidth N a) (hb : InWidth N b) :
    InWidth N (a + clampInt (b - a) (minInt N) (maxInt N)) := by
  have hmin := minInt_nonpos N
  have hmax := maxInt_nonneg N
  obtain ⟨ha1, ha2⟩ := ha
  obtain ⟨hb1, hb2⟩ := hb
  rcases lt_minInt_or_inWidth_or_maxInt_lt N (b - a) with h | h | h
  · rw [clampInt_of_lt_minInt h]; exact ⟨by omega, by omega⟩
  · rw [clampInt_of_inWidth h]; exact ⟨by omega, by omega⟩
  · rw [clampInt_of_maxInt_lt h]; exact ⟨by omega, by omega⟩

/-! ## The recurrences -/

section
variable {N n : Nat} {p p' d d' q carry : Nat → Int} {err : Nat → Nat}

/-- The recurrence of R141 reads only the first `n` samples. -/
theorem EncoderRun.congr (run : EncoderRun N n p d carry err) (h : ∀ i, i < n → p i = p' i) :
    EncoderRun N n p' d carry err where
  first h0 := (run.first h0).trans (h 0 h0)
  noCarry := run.noCarry
  noError := run.noError
  high i hi := by rw [← h _ hi, ← h i (by omega)]; exact run.high i hi
  low i hi := by rw [← h _ hi, ← h i (by omega)]; exact run.low i hi
  inside i hi := by rw [← h _ hi, ← h i (by omega)]; exact run.inside i hi

/-- The recurrence of R142 reads only the first `n` deltas. -/
theorem DecoderRun.congr (run : DecoderRun N n d q) (h : ∀ i, i < n → d i = d' i) : DecoderRun N n d' q where
  first h0 := (run.first h0).trans (h 0 h0)
  next i hi := by rw [← h _ hi]; exact run.next i hi

/-- R141, one step: the delta is the clamped difference, the carry is what the clamp cut off, and the error count grows exactly
when it cut something off. -/
theorem EncoderRun.step (run : EncoderRun N n p d carry err) {i : Nat} (hi : i + 1 < n) :
    d (i + 1) = clampInt (p (i + 1) - p i + carry i) (minInt N) (maxInt N) ∧
    carry (i + 1) = p (i + 1) - p i + carry i - d (i + 1) ∧
    (InWidth N (p (i + 1) - p i + carry i) ∧ err (i + 1) = err i ∨
      ¬InWidth N (p (i + 1) - p i + carry i) ∧ err (i + 1) = err i + 1) := by
  rcases lt_minInt_or_inWidth_or_maxInt_lt N (p (i + 1) - p i + carry i) with h | h | h
  · obtain ⟨hd, hc, he⟩ := run.low i hi h
    rw [clampInt_of_lt_minInt h, hc, hd]
    exact ⟨rfl, rfl, .inr ⟨fun hw => by have := hw.1; omega, he⟩⟩
  · obtain ⟨hd, hc, he⟩ := run.inside i hi h.1 h.2
    rw [clampInt_of_inWidth h, hc, hd]
    exact ⟨rfl, (sub_self _).symm, .inl ⟨h, he⟩⟩
  · obtain ⟨hd, hc, he⟩ := run.high i hi h
    rw [clampInt_of_maxInt_lt h, hc, hd]
    exact ⟨rfl, rfl, .inr ⟨fun hw => by have := hw.2; omega, he⟩⟩

/-- R141: each step counts at most one clamp event. -/
theorem EncoderRun.err_le (run : EncoderRun N n p d carry err) : ∀ i, i ≤ n - 1 → err i ≤ i
  | 0, _ => run.noError.le
  | i + 1, hi => by
    have ih := run.err_le i (by omega)
    obtain ⟨_, _, ⟨_, he⟩ | ⟨_, he⟩⟩ := run.step (i := i) (by omega) <;> omega

/-- R141: while nothing has been clamped, nothing is carried. -/
theorem EncoderRun.carry_eq_zero (run : EncoderRun N n p d carry err) {i : Nat} (hi : i ≤ n - 1) (h : err i = 0) :
    carry i = 0 := by
  cases i with
  | zero => exact run.noCarry
  | succ i =>
    obtain ⟨hd, hc, ⟨hw, _⟩ | ⟨_, he⟩⟩ := run.step (i := i) (by omega)
    · rw [hc, hd, clampInt_of_inWidth hw, sub_self]
    · omega

/-- R149: nothing has been clamped exactly when every step of the samples so far lies in the range. -/
theorem EncoderRun.err_eq_zero_iff (run : EncoderRun N n p d carry err) :
    ∀ i, i ≤ n - 1 → (err i = 0 ↔ ∀ j, j < i → InWidth N (p (j + 1) - p j))
  | 0, _ => by simp [run.noError]
  | i + 1, hi => by
    have ih := run.err_eq_zero_iff i (by omega)
    obtain ⟨_, _, hstep⟩ := run.step (i := i) (by omega)
    rw [Nat.forall_lt_succ_right, ← ih]
    by_cases h0 : err i = 0
    · rw [run.carry_eq_zero (by omega) h0, add_zero] at hstep
      rcases hstep with ⟨hw, he⟩ | ⟨hw, he⟩ <;> simp [he, h0, hw]
    · have : err (i + 1) ≠ 0 := by omega
      simp [h0, this]

/-- R143: the decoded value is the sample less the carry, and in range, so that the decoder's wrap changes nothing. -/
theorem EncoderRun.closedLoop (run : EncoderRun N n p d carry err) (dec : DecoderRun N n d q) (hN : 0 < N)
    (hp : ∀ i, i < n → InWidth N (p i)) : ∀ i, i < n → q i = p i - carry i ∧ InWidth N (q i)
  | 0, h0 => by
    rw [dec.first h0, run.first h0, run.noCarry, sub_zero]
    exact ⟨rfl, hp 0 h0⟩
  | i + 1, hi => by
    obtain ⟨ih, hq⟩ := run.closedLoop dec hN hp i (by omega)
    obtain ⟨hd, hc, _⟩ := run.step hi
    have hdiff : p (i + 1) - p i + carry i = p (i + 1) - q i := by omega
    rw [hdiff] at hd hc
    have hsum : InWidth N (q i + d (i + 1)) := by
      rw [hd]
      exact inWidth_add_clampInt hq (hp _ hi)
    rw [dec.next i hi, wrapInt_of_inWidth hN hsum]
    exact ⟨by omega, hsum⟩

/-- R143: the decoder's sum is exact, and each delta is the clamped step from the decoded value before it. -/
theorem EncoderRun.closedLoop_step (run : EncoderRun N n p d carry err) (dec : DecoderRun N n d q) (hN : 0 < N)
    (hp : ∀ i, i < n → InWidth N (p i)) {i : Nat} (hi : i + 1 < n) :
    q (i + 1) = q i + d (i + 1) ∧ d (i + 1) = clampInt (p (i + 1) - q i) (minInt N) (maxInt N) := by
  obtain ⟨hq, _⟩ := run.closedLoop dec hN hp i (by omega)
  obtain ⟨hq', _⟩ := run.closedLoop dec hN hp (i + 1) hi
  obtain ⟨hd, hc, _⟩ := run.step hi
  have hdiff : p (i + 1) - p i + carry i = p (i + 1) - q i := by omega
  exact ⟨by omega, hdiff ▸ hd⟩

/-- R143: the carry is the difference of two integers of the range. -/
theorem EncoderRun.abs_carry_le (run : EncoderRun N n p d carry err) (dec : DecoderRun N n d q) (hN : 0 < N)
    (hp : ∀ i, i < n → InWidth N (p i)) {i : Nat} (hi : i < n) : |carry i| ≤ ((2 ^ N : Nat) : Int) - 1 := by
  obtain ⟨hq, hqlo, hqhi⟩ := run.closedLoop dec hN hp i hi
  obtain ⟨hplo, hphi⟩ := hp i hi
  rw [← maxInt_sub_minInt hN, abs_le]
  omega

/-- R141: every delta lies in the range. -/
theorem EncoderRun.inWidth_delta (run : EncoderRun N n p d carry err) (hp : ∀ i, i < n → InWidth N (p i)) :
    ∀ i, i < n → InWidth N (d i)
  | 0, h0 => by rw [run.first h0]; exact hp 0 h0
  | i + 1, hi => by rw [(run.step hi).1]; exact inWidth_clampInt N _

/-- R149: with no clamp event, decoding gives the samples back. -/
theorem EncoderRun.decoded_eq (run : EncoderRun N n p d carry err) (dec : DecoderRun N n d q) (hN : 0 < N)
    (hp : ∀ i, i < n → InWidth N (p i)) (h : err (n - 1) = 0) {i : Nat} (hi : i < n) : q i = p i := by
  have hsteps := (run.err_eq_zero_iff (n - 1) (le_refl _)).mp h
  have herr : err i = 0 := (run.err_eq_zero_iff i (by omega)).mpr fun j hj => hsteps j (by omega)
  rw [(run.closedLoop dec hN hp i hi).1, run.carry_eq_zero (by omega) herr, sub_zero]

end

/-! ## The closed loop and the round trip of a sequence -/

/-- The decoder run on what the encoder made of `p`. -/
theorem decoderRun_deltas (N : Nat) (p : List Int) :
    DecoderRun N p.length (fun i => (dpcmEncode N p).deltas[i]!) (fun i => (dpcmDecode N (dpcmEncode N p).deltas)[i]!) := by
  have h := decoderRun_dpcmDecode N (dpcmEncode N p).deltas
  rwa [length_dpcmEncode] at h

/-- A property of every member of a list, by index. -/
theorem getElem!_of_forall_mem {P : Int → Prop} {p : List Int} (h : ∀ v ∈ p, P v) : ∀ i, i < p.length → P p[i]! := by
  intro i hi
  rw [getElem!_pos p i hi]
  exact h _ (List.getElem_mem hi)

/-- Settles O44: the closed loop of the recurrences, which the encoder and the decoder are. -/
theorem dpcmEncoderIsClosedLoop : Obligations.DpcmEncoderIsClosedLoop := by
  intro N p hN hp
  have hpos : 0 < N := by omega
  have run := encoderRun_dpcmEncode N p
  have dec := decoderRun_deltas N p
  have hin := getElem!_of_forall_mem hp
  refine ⟨length_dpcmEncode N p, (length_dpcmDecode N _).trans (length_dpcmEncode N p), fun i hi => ?_,
    fun i hi => run.closedLoop_step dec hpos hin hi⟩
  obtain ⟨hq, hw⟩ := run.closedLoop dec hpos hin i hi
  exact ⟨hq, hw, run.inWidth_delta hin i hi, run.abs_carry_le dec hpos hin hi⟩

/-- Settles O45: the error count is the recurrence's last one, and the decoded value is the sample less the carry. -/
theorem dpcmLosslessExactlyWithoutClamps : Obligations.DpcmLosslessExactlyWithoutClamps := by
  intro N p hN hp
  have hpos : 0 < N := by omega
  have run := encoderRun_dpcmEncode N p
  have dec := decoderRun_deltas N p
  have hin := getElem!_of_forall_mem hp
  rw [(dpcmEncode_last N p).1]
  refine ⟨?_, fun h => ?_, run.err_le _ (le_refl _), fun i hi => ?_⟩
  · rw [run.err_eq_zero_iff _ (le_refl _)]
    exact forall_congr' fun i => imp_congr_left (by omega)
  · have hlen : (dpcmDecode N (dpcmEncode N p).deltas).length = p.length := by simp
    refine List.ext_getElem hlen fun i hi hi' => ?_
    have heq := run.decoded_eq dec hpos hin h hi'
    rwa [getElem!_pos _ i hi, getElem!_pos p i hi'] at heq
  · obtain ⟨hq, _⟩ := run.closedLoop dec hpos hin i hi
    omega

/-! ## The samples of a command -/

/-- DPCM.ENC16's samples and DPCM.DEC16's deltas (30_encoding.md R75, R76). -/
def State.samples16 (s : State) : List Int := signed16s s.mem s.srcBase s.count

/-- DPCM.ENC8's samples (R144, R145). -/
def State.samples8 (s : State) : List Int := s.samples16.map narrow8

/-- DPCM.DEC8's deltas (R76). -/
def State.deltas8 (s : State) : List Int := signed8s s.mem s.srcBase s.count

@[simp] theorem length_samples16 (s : State) : s.samples16.length = s.arg0.toNat := length_signed16s _ _ _
@[simp] theorem length_samples8 (s : State) : s.samples8.length = s.arg0.toNat := by simp [State.samples8]
@[simp] theorem length_deltas8 (s : State) : s.deltas8.length = s.arg0.toNat := length_signed8s _ _ _

theorem getElem!_samples16 (s : State) (i : Nat) (h : i < s.arg0.toNat) : s.samples16[i]! = source16 s i :=
  getElem!_signed16s _ _ _ _ h

theorem getElem!_samples8 (s : State) (i : Nat) (h : i < s.arg0.toNat) : s.samples8[i]! = narrow8 (source16 s i) := by
  simp [State.samples8, State.samples16, signed16s, source16, State.count, zext, h]

theorem getElem!_deltas8 (s : State) (i : Nat) (h : i < s.arg0.toNat) : s.deltas8[i]! = source8 s i :=
  getElem!_signed8s _ _ _ _ h

/-- The recurrence of R141 over `n` samples that a list holds. -/
theorem encoderRun_of_getElem! (N : Nat) {n : Nat} {f : Nat → Int} {ps : List Int} (hn : ps.length = n)
    (h : ∀ i, i < n → ps[i]! = f i) :
    EncoderRun N n f (fun i => (dpcmEncode N ps).deltas[i]!) (carryAfter N ps) (errorsAfter N ps) := by
  subst hn
  exact (encoderRun_dpcmEncode N ps).congr h

/-- The recurrence of R142 over `n` deltas that a list holds. -/
theorem decoderRun_of_getElem! (N : Nat) {n : Nat} {f : Nat → Int} {ds : List Int} (hn : ds.length = n)
    (h : ∀ i, i < n → ds[i]! = f i) : DecoderRun N n f (fun i => (dpcmDecode N ds)[i]!) := by
  subst hn
  exact (decoderRun_dpcmDecode N ds).congr h

/-! ## What the commands write -/

section
variable {s : State}

theorem completionOf_dpcmEnc8 (he : ExtentsGood .dpcmEnc8 s) (hcap : s.arg0.toNat ≤ s.dstCap.toNat) :
    completionOf .dpcmEnc8 s = .success (dpcmEncode 8 s.samples8).errors (dpcmEncode 8 s.samples8).carry
      (bytesOf8s (dpcmEncode 8 s.samples8).deltas) :=
  (completionOf_good .dpcmEnc8 s nofun he).trans (if_neg (Nat.not_lt.mpr hcap))

theorem completionOf_dpcmEnc16 (he : ExtentsGood .dpcmEnc16 s) (hcap : 2 * s.arg0.toNat ≤ s.dstCap.toNat) :
    completionOf .dpcmEnc16 s = .success (dpcmEncode 16 s.samples16).errors (dpcmEncode 16 s.samples16).carry
      (bytesOf16s (dpcmEncode 16 s.samples16).deltas) :=
  (completionOf_good .dpcmEnc16 s nofun he).trans (if_neg (Nat.not_lt.mpr hcap))

theorem completionOf_dpcmDec8 (he : ExtentsGood .dpcmDec8 s) (hcap : 2 * s.arg0.toNat ≤ s.dstCap.toNat) :
    completionOf .dpcmDec8 s = .success s.arg0.toNat 0 (bytesOf16s ((dpcmDecode 8 s.deltas8).map widen8)) :=
  (completionOf_good .dpcmDec8 s nofun he).trans (if_neg (Nat.not_lt.mpr hcap))

theorem completionOf_dpcmDec16 (he : ExtentsGood .dpcmDec16 s) (hcap : 2 * s.arg0.toNat ≤ s.dstCap.toNat) :
    completionOf .dpcmDec16 s = .success s.arg0.toNat 0 (bytesOf16s (dpcmDecode 16 s.samples16)) :=
  (completionOf_good .dpcmDec16 s nofun he).trans (if_neg (Nat.not_lt.mpr hcap))

/-- R76: element `i` of a stored sequence of 8-bit elements reads back as its 8 bits. -/
theorem read_writeBytes_bytesOf8s (m : Memory) (base i : Nat) (vs : List Int) (h : i < vs.length) :
    (m.writeBytes base (bytesOf8s vs)).read (base + i) = bitsOf 8 vs[i]! := by
  rw [Memory.read_writeBytes_at _ _ _ _ (by simpa using h), getElem!_pos vs i h]
  exact List.getElem_map _

/-- R75: a command that ends with a sequence of 16-bit elements has stored it at DST_ADDR, and nothing else. -/
theorem exec_success_bytesOf16s {i : Instr} {r0 : Nat} {r1 : Int} {vs : List Int} {n : Nat}
    (h : completionOf i s = .success r0 r1 (bytesOf16s vs)) (hn : vs.length = n) :
    ∃ t, exec i s = .next t ∧ Finished t .ok r0 r1 ∧ CommandFrame s t ∧ MemoryKeptOutside s t s.dstAddr.toNat (2 * n) ∧
      ∀ k, k < n → t.mem.read16 (s.dstAddr.toNat + 2 * k) = bitsOf 16 vs[k]! := by
  subst hn
  obtain ⟨t, hexec, hfin, hframe, hkept, hmem⟩ := exec_success i s _ _ _ h
  rw [length_bytesOf16s] at hkept
  refine ⟨t, hexec, hfin, hframe, hkept, fun k hk => ?_⟩
  rw [hmem, Memory.read16_writeBytes_bytesOf16s _ _ _ _ hk, getElem!_pos vs k hk]

end

/-- Settles O34: the model's encoder is the recurrence over the narrowed samples. -/
theorem dpcmEnc8WritesTheDeltas : Obligations.DpcmEnc8WritesTheDeltas := by
  intro s he hcap
  obtain ⟨t, hexec, hfin, hframe, hkept, hmem⟩ := exec_success _ s _ _ _ (completionOf_dpcmEnc8 he hcap)
  obtain ⟨herr, hcarry⟩ := dpcmEncode_last 8 s.samples8
  rw [herr, hcarry, length_samples8] at hfin
  rw [length_bytesOf8s, length_dpcmEncode, length_samples8] at hkept
  refine ⟨t, _, _, _, encoderRun_of_getElem! 8 (length_samples8 s) (getElem!_samples8 s), hexec, hfin, hframe, hkept,
    fun i hi => ?_⟩
  rw [hmem, read_writeBytes_bytesOf8s _ _ _ _ (by simpa using hi)]

/-- Settles O35: the model's encoder is the recurrence over the samples. -/
theorem dpcmEnc16WritesTheDeltas : Obligations.DpcmEnc16WritesTheDeltas := by
  intro s he hcap
  have hlen : (dpcmEncode 16 s.samples16).deltas.length = s.arg0.toNat := by simp
  obtain ⟨t, hexec, hfin, hframe, hkept, hmem⟩ := exec_success_bytesOf16s (completionOf_dpcmEnc16 he hcap) hlen
  obtain ⟨herr, hcarry⟩ := dpcmEncode_last 16 s.samples16
  rw [herr, hcarry, length_samples16] at hfin
  exact ⟨t, _, _, _, encoderRun_of_getElem! 16 (length_samples16 s) (getElem!_samples16 s), hexec, hfin, hframe, hkept, hmem⟩

/-- Settles O36: the model's decoder is the recurrence over the deltas, and each sum is widened. -/
theorem dpcmDec8WritesTheWidenedSums : Obligations.DpcmDec8WritesTheWidenedSums := by
  intro s he hcap
  have hlen : (dpcmDecode 8 s.deltas8).length = s.arg0.toNat := by simp
  obtain ⟨t, hexec, hfin, hframe, hkept, hmem⟩ :=
    exec_success_bytesOf16s (completionOf_dpcmDec8 he hcap) ((List.length_map _).trans hlen)
  refine ⟨t, _, decoderRun_of_getElem! 8 (length_deltas8 s) (getElem!_deltas8 s), hexec, hfin, hframe, hkept,
    fun i hi => ?_⟩
  have hi' : i < (dpcmDecode 8 s.deltas8).length := hlen.symm ▸ hi
  rw [hmem i hi, getElem!_pos _ i ((List.length_map _).symm ▸ hi'), getElem!_pos _ i hi', List.getElem_map, widen8]

/-- Settles O37: the model's decoder is the recurrence over the deltas. -/
theorem dpcmDec16WritesTheSums : Obligations.DpcmDec16WritesTheSums := by
  intro s he hcap
  obtain ⟨t, hexec, hfin, hframe, hkept, hmem⟩ :=
    exec_success_bytesOf16s (completionOf_dpcmDec16 he hcap) ((length_dpcmDecode 16 _).trans (length_samples16 s))
  exact ⟨t, _, decoderRun_of_getElem! 16 (length_samples16 s) (getElem!_samples16 s), hexec, hfin, hframe, hkept, hmem⟩

/-! ## Decoding what was encoded -/

/-- 60_exceptions.md R212, R221: a command that ended with OK passed its checks. -/
theorem checks_of_ok {i : Instr} {s t : State} (h : exec i s = .next t) (hok : t.code = .ok) :
    ExtentsGood i s ∧ DataGood i s ∧ outputSize i s ≤ s.capacity := by
  rcases completionOf_spec i s with ⟨c, _, _, hc, hfail, _⟩ | ⟨_, _, _, _, _, hchecks⟩
  · rw [eq_complete_of_exec h, hfail] at hok
    exact absurd hok hc
  · exact hchecks

/-- A register that holds a count below 2^32 holds 0 only for the count 0: RES0 = 0 says that nothing was clamped. -/
theorem err_eq_zero_of_res0 {N : Nat} {a res0 : Word} {p d carry : Nat → Int} {err : Nat → Nat}
    (run : EncoderRun N a.toNat p d carry err) (hres : res0 = BitVec.ofNat 32 (err (a.toNat - 1))) (h : res0 = 0) :
    err (a.toNat - 1) = 0 := by
  have hle := run.err_le _ (le_refl _)
  have hmod := congrArg BitVec.toNat (hres.symm.trans h)
  rw [BitVec.toNat_ofNat, Nat.mod_eq_of_lt (by omega)] at hmod
  exact hmod

/-- R149: a decoder that reads the stored deltas of an encoding with RES0 = 0 gives its samples back. Each delta lies in the
range, so it reads back as itself. -/
theorem decoded_eq_of_stored {N : Nat} {a res0 : Word} {p d f q carry : Nat → Int} {err : Nat → Nat}
    (run : EncoderRun N a.toNat p d carry err) (dec : DecoderRun N a.toNat f q) (hN : 0 < N)
    (hp : ∀ i, InWidth N (p i)) (hstored : ∀ i, i < a.toNat → f i = sext (bitsOf N (d i)))
    (hres : res0 = BitVec.ofNat 32 (err (a.toNat - 1))) (h : res0 = 0) {i : Nat} (hi : i < a.toNat) : q i = p i := by
  have hin := fun j (_ : j < a.toNat) => hp j
  have hread : ∀ j, j < a.toNat → f j = d j := fun j hj =>
    (hstored j hj).trans (wrapInt_of_inWidth hN (run.inWidth_delta hin j hj))
  exact run.decoded_eq (dec.congr hread) hN hin (err_eq_zero_of_res0 run hres h) hi

/-- 20_memory.md R51: an element by its two bytes, the high one signed. -/
theorem sext_halfOf (lo hi : Byte) : sext (halfOf lo hi) = 256 * sext hi + lo.toNat := BitVec.toInt_append

/-- R144: narrowing an element leaves its high byte. -/
theorem narrow8_sext_halfOf (lo hi : Byte) : narrow8 (sext (halfOf lo hi)) = sext hi := by
  have hlo := lo.isLt
  rw [sext_halfOf, narrow8_eq_ediv]
  omega

/-- R144: widening a narrowed element clears its low byte. -/
theorem bitsOf_narrow8_mul (lo hi : Byte) : bitsOf 16 (narrow8 (sext (halfOf lo hi)) * 256) = halfOf 0x00 hi := by
  have h : sext hi * 256 = sext (halfOf 0x00 hi) := by simp [sext_halfOf, mul_comm]
  rw [narrow8_sext_halfOf, h, bitsOf_sext]

/-- R51: the two bytes of an element are its own. -/
theorem halfOf_inj {lo hi lo' hi' : Byte} (h : halfOf lo hi = halfOf lo' hi') : lo = lo' ∧ hi = hi' := by
  have hsum := congrArg sext h
  rw [sext_halfOf, sext_halfOf] at hsum
  have hlo := lo.isLt
  have hlo' := lo'.isLt
  exact ⟨BitVec.eq_of_toNat_eq (by omega), BitVec.eq_of_toInt_eq (by simp only [sext] at hsum; omega)⟩

/-- Settles O46: the stored deltas are the ones read, and their decoding is lossless. -/
theorem dec16AfterEnc16ReturnsTheSamples : Obligations.Dec16AfterEnc16ReturnsTheSamples := by
  intro s t u henc hok hres hmem hsrc harg he hcap
  obtain ⟨hse, _, hscap⟩ := checks_of_ok henc hok
  obtain ⟨t', d, carry, err, run, henc', ⟨_, _, _, hres0, _⟩, _, _, hd⟩ := dpcmEnc16WritesTheDeltas s hse hscap
  obtain rfl : t = t' := Host.Outcome.next.inj (henc.symm.trans henc')
  rw [← harg] at hcap
  obtain ⟨v, q, dec, hdec, hfin, _, _, hq⟩ := dpcmDec16WritesTheSums u he hcap
  rw [harg] at dec hfin hq
  have hstored : ∀ i, i < s.arg0.toNat → source16 u i = sext (bitsOf 16 (d i)) := fun i hi => by
    rw [source16, State.srcBase, hsrc, zext, Memory.read16, hmem, hmem, ← Memory.read16, hd i hi]
  refine ⟨v, hdec, hfin, fun i hi => ?_⟩
  rw [hq i hi, decoded_eq_of_stored run dec (by decide) (fun _ => inWidth_sext _) hstored hres0 hres hi]
  exact bitsOf_sext _

/-- Settles O47: as O46 for the narrowed samples, each of which is widened again. -/
theorem dec8AfterEnc8ClearsTheLowBytes : Obligations.Dec8AfterEnc8ClearsTheLowBytes := by
  intro s t u henc hok hres hmem hsrc harg he hcap
  obtain ⟨hse, _, hscap⟩ := checks_of_ok henc hok
  obtain ⟨t', d, carry, err, run, henc', ⟨_, _, _, hres0, _⟩, _, _, hd⟩ := dpcmEnc8WritesTheDeltas s hse hscap
  obtain rfl : t = t' := Host.Outcome.next.inj (henc.symm.trans henc')
  rw [← harg] at hcap
  obtain ⟨v, q, dec, hdec, hfin, _, _, hq⟩ := dpcmDec8WritesTheWidenedSums u he hcap
  rw [harg] at dec hfin hq
  have hstored : ∀ i, i < s.arg0.toNat → source8 u i = sext (bitsOf 8 (d i)) := fun i hi => by
    rw [source8, State.srcBase, hsrc, zext, hmem, hd i hi]
  refine ⟨v, hdec, hfin, fun i hi => ?_⟩
  have hhalf := hq i hi
  rw [decoded_eq_of_stored run dec (by decide) (fun _ => inWidth_narrow8 _ (inWidth_sext _)) hstored hres0 hres hi] at hhalf
  exact halfOf_inj (hhalf.trans (bitsOf_narrow8_mul _ _))

end Sys2Proof.Machine
end

section
/-! PROOFS of the family 42_envelope.md: the values of a segment (R186, R187), the length of the table (R183), and what
ENV.EXPAND writes (R181, R182, R185, R188). -/

namespace Sys2Proof.Machine

/-! ## The values of a segment -/

/-- R181: the slope `inc` of a segment from `y0` to `y1` over `len` ticks, in 16.16 fixed point. -/
def segmentSlope (y0 y1 len : Nat) : Int := tdiv (((y1 : Int) - y0) * 65536) len

/-- R181: a value of a segment is its first value plus the floor of `inc·j / 2^16`. -/
theorem segmentValue_eq (y0 y1 len j : Nat) : segmentValue y0 y1 len j = y0 + segmentSlope y0 y1 len * j / 65536 :=
  congrArg ((y0 : Int) + ·) (asr_eq_ediv _ 16)

/-- R187: an ascending slope is the quotient of natural numbers. -/
theorem segmentSlope_of_le {y0 y1 : Nat} (h : y0 ≤ y1) (len : Nat) :
    segmentSlope y0 y1 len = (((y1 - y0) * 65536 / len : Nat) : Int) := by
  rw [segmentSlope, tdiv, ← Nat.cast_sub h]
  exact (Int.ofNat_tdiv _ _).symm

/-- R9: rounding is toward zero, so a slope changes its sign when the segment is turned round. -/
theorem segmentSlope_swap (y0 y1 len : Nat) : segmentSlope y1 y0 len = -segmentSlope y0 y1 len := by
  rw [segmentSlope, segmentSlope, tdiv, tdiv, ← Int.neg_tdiv, ← neg_mul, neg_sub]

@[simp] theorem segmentValue_zero (y0 y1 len : Nat) : segmentValue y0 y1 len 0 = y0 := by simp [segmentValue_eq]

/-- R186: after `j` of the `len` ticks the slope has not risen past the whole difference. -/
theorem segmentSlope_mul_le {y0 y1 len j : Nat} (h : y0 ≤ y1) (hj : j ≤ len) :
    0 ≤ segmentSlope y0 y1 len * j ∧ segmentSlope y0 y1 len * j ≤ ((y1 : Int) - y0) * 65536 := by
  rw [segmentSlope_of_le h, ← Nat.cast_sub h]
  have hle : (y1 - y0) * 65536 / len * j ≤ (y1 - y0) * 65536 :=
    (Nat.mul_le_mul_left _ hj).trans (Nat.div_mul_le_self _ _)
  exact ⟨by positivity, by exact_mod_cast hle⟩

/-- R186: the values of a segment lie between its two ends. -/
theorem segmentValue_between (y0 y1 : Nat) {len j : Nat} (hj : j ≤ len) :
    (min y0 y1 : Int) ≤ segmentValue y0 y1 len j ∧ segmentValue y0 y1 len j ≤ (max y0 y1 : Int) := by
  rw [segmentValue_eq]
  rcases le_total y0 y1 with h | h
  · obtain ⟨hlo, hhi⟩ := segmentSlope_mul_le h hj
    omega
  · obtain ⟨hlo, hhi⟩ := segmentSlope_mul_le h hj
    rw [segmentSlope_swap, neg_mul] at hlo hhi
    omega

/-- R187: over the whole ascending segment the slope falls short of the difference by the remainder of its division. -/
theorem segmentSlope_mul_len {y0 y1 : Nat} (h : y0 ≤ y1) (len : Nat) :
    segmentSlope y0 y1 len * len = ((y1 : Int) - y0) * 65536 - (((y1 - y0) * 65536 % len : Nat) : Int) := by
  rw [segmentSlope_of_le h, ← Nat.cast_sub h]
  have hdiv : (y1 - y0) * 65536 / len * len + (y1 - y0) * 65536 % len = (y1 - y0) * 65536 := Nat.div_add_mod' _ _
  exact eq_sub_of_add_eq (by exact_mod_cast hdiv)

/-- R187: the last value. What the slope falls short by is less than `len`, so less than one unit of the value: the floor
drops a unit exactly when the segment ascends and something is left over. -/
theorem segmentValue_last (y0 y1 : Nat) {len : Nat} (hpos : 0 < len) (hlen : len < 65536) :
    segmentValue y0 y1 len len = if y0 < y1 ∧ (y1 - y0) * 65536 % len ≠ 0 then (y1 : Int) - 1 else y1 := by
  rw [segmentValue_eq]
  rcases lt_or_ge y0 y1 with h | h
  · have hrem := Nat.mod_lt ((y1 - y0) * 65536) hpos
    rw [segmentSlope_mul_len h.le]
    split <;> omega
  · have hrem := Nat.mod_lt ((y0 - y1) * 65536) hpos
    rw [if_neg (by omega), segmentSlope_swap, neg_mul, segmentSlope_mul_len h]
    omega

/-- A segment's values are those of ticks `0` to its length. -/
theorem mem_segment_iff {p q : Breakpoint} (h : p.x ≤ q.x) (v : Int) :
    v ∈ segment p q ↔ ∃ j, j ≤ q.x - p.x ∧ v = segmentValue p.y q.y (q.x - p.x) j := by
  rw [List.mem_iff_getElem]
  constructor
  · rintro ⟨j, hj, rfl⟩
    exact ⟨j, by rw [length_segment] at hj; omega, getElem_segment p q h j hj⟩
  · rintro ⟨j, hj, rfl⟩
    exact ⟨j, by rw [length_segment]; omega, getElem_segment p q h j _⟩

theorem head?_segment {p q : Breakpoint} (h : p.x ≤ q.x) : (segment p q).head? = some (p.y : Int) := by
  have hlen : 0 < (segment p q).length := by simp
  rw [List.head?_eq_getElem?, List.getElem?_eq_getElem hlen, getElem_segment p q h, segmentValue_zero]

theorem getLast?_segment {p q : Breakpoint} (h : p.x ≤ q.x) :
    (segment p q).getLast? = some (segmentValue p.y q.y (q.x - p.x) (q.x - p.x)) := by
  have hlen : q.x - p.x < (segment p q).length := by simp
  rw [List.getLast?_eq_getElem?, length_segment, Nat.add_sub_cancel, List.getElem?_eq_getElem hlen, getElem_segment p q h]

/-- Settles O49: each value lies between the ends, which are 16-bit values. -/
theorem envValuesStayBetweenBreakpoints : Obligations.EnvValuesStayBetweenBreakpoints := by
  intro p q hx hp hq v hv
  obtain ⟨j, hj, rfl⟩ := (mem_segment_iff hx.le v).mp hv
  obtain ⟨hlo, hhi⟩ := segmentValue_between p.y q.y hj
  exact ⟨hlo, hhi, by omega, by omega⟩

/-- Settles O50: the three cases of R187. -/
theorem envSegmentEndValue : Obligations.EnvSegmentEndValue := by
  intro p q hx hqx _ _
  rw [getLast?_segment hx.le, segmentValue_last _ _ (by omega) (by omega)]
  refine ⟨head?_segment hx.le, fun h => ?_, fun _ h => ?_, fun hlt h => ?_⟩
  · rw [if_neg fun hc => absurd hc.1 (Nat.not_lt.mpr h)]
  · rw [if_neg fun hc => hc.2 h]
  · rw [if_pos ⟨hlt, h⟩]

/-! ## The length of the table -/

theorem ordered_of_pairwise {pts : List Breakpoint} (h : pts.Pairwise fun p q => p.x < q.x) : Ordered pts :=
  fun k hk => List.pairwise_iff_getElem.mp h k (k + 1) _ hk (Nat.lt_succ_self k)

/-- R183: each segment is at least one tick long. -/
theorem Ordered.add_le {pts : List Breakpoint} (h : Ordered pts) :
    ∀ k (hk : k < pts.length), pts[0].x + k ≤ pts[k].x
  | 0, _ => le_refl _
  | k + 1, hk => by
    have hprev := h.add_le k (by omega)
    have hstep := h k hk
    omega

/-- Settles O48: the length by index, at least one tick for each segment, and the last tick below 2^16. -/
theorem envTableLength : Obligations.EnvTableLength := by
  intro pts hlo hhi hx hpts
  obtain ⟨n, hn⟩ : ∃ n, pts.length = n + 1 := ⟨pts.length - 1, by omega⟩
  have hord := ordered_of_pairwise hpts
  have hlen := (length_envTable pts hord n hn).2
  have hticks := hord.add_le n (by omega)
  have hlast := hx _ (List.getElem_mem (show n < pts.length by omega))
  have hhead : pts.headD ⟨0, 0⟩ = pts[0] := by
    rw [List.headD_eq_head?_getD, List.head?_eq_getElem?, List.getElem?_eq_getElem (by omega), Option.getD_some]
  have hlastD : pts.getLastD ⟨0, 0⟩ = pts[n] := by
    rw [List.getLastD_eq_getLast?, List.getLast?_eq_getElem?, List.getElem?_eq_getElem (by omega), Option.getD_some]
    simp [hn]
  rw [hhead, hlastD, hlen]
  omega

/-! ## What the command writes -/

/-- The breakpoints of ENV.EXPAND's source (30_encoding.md R78). -/
def State.points (s : State) : List Breakpoint := breakpointsAt s.mem s.srcBase s.count

/-- R188: the entry of tick `x_k + j` of segment `k` in the table of an ordered source. -/
theorem getElem?_envTable_points {s : State} (h : Increasing s) {k j : Nat} (hk : k + 1 < s.count)
    (hj : j ≤ pointX s (k + 1) - pointX s k) :
    (envTable s.points)[(pointX s k - pointX s 0) + k + j]? =
      some (segmentValue (pointY s k) (pointY s (k + 1)) (pointX s (k + 1) - pointX s k) j) := by
  have hentry := getElem?_envTable s.points ((ordered_breakpointsAt s).mpr h) k j ((length_breakpointsAt _ _ _).symm ▸ hk)
  simp only [State.points, getElem_breakpointsAt] at hentry ⊢
  exact (hentry hj).2

/-- R185: ENV.EXPAND succeeds with its table when all its checks pass. -/
theorem completionOf_envExpand {s : State} (he : ExtentsGood .envExpand s) (hd : DataGood .envExpand s)
    (hcap : 2 * tableLength s ≤ s.capacity) :
    completionOf .envExpand s = .success (tableLength s) 0 (bytesOf16s (envTable s.points)) := by
  have ⟨hlo, _, hinc⟩ := hd
  have hlen : (envTable s.points).length = tableLength s := length_envTable_source s hinc (Nat.zero_lt_of_lt hlo)
  have hord : firstDisorder s.points = none := (firstDisorder_eq_none _).mpr ((ordered_breakpointsAt s).mpr hinc)
  rw [completionOf_good .envExpand s (countGood_of_data _ s hd) he, bodyOf, envExpandBody, ← State.points, hord]
  simp only [hlen, if_neg (Nat.not_lt.mpr hcap)]

/-- Settles O38: the bytes stored are the table's, and the table's entries are the interpolated values. -/
theorem envExpandWritesTheTable : Obligations.EnvExpandWritesTheTable := by
  intro s hlo hhi he hinc hcap
  have hlen : (envTable s.points).length = tableLength s := length_envTable_source s hinc (Nat.zero_lt_of_lt hlo)
  obtain ⟨t, hexec, hfin, hframe, hkept, hmem⟩ :=
    exec_success_bytesOf16s (completionOf_envExpand he ⟨hlo, hhi, hinc⟩ hcap) hlen
  refine ⟨t, hexec, hfin, hframe, hkept, fun k j hk hj => ?_⟩
  obtain ⟨hlt, hvalue⟩ := List.getElem?_eq_some_iff.mp (getElem?_envTable_points hinc hk hj)
  rw [hmem _ (hlen ▸ hlt), getElem!_pos (envTable s.points) _ hlt, hvalue]

/-! ## The value at a shared breakpoint -/

theorem pointX_lt (s : State) (k : Nat) : pointX s k < 65536 := (s.mem.read16 _).isLt
theorem pointY_lt (s : State) (k : Nat) : pointY s k < 65536 := (s.mem.read16 _).isLt

theorem Increasing.pointX_zero_le {s : State} (h : Increasing s) : ∀ k, k < s.count → pointX s 0 ≤ pointX s k
  | 0, _ => le_refl _
  | k + 1, hk => (h.pointX_zero_le k (by omega)).trans (h k hk).le

/-- R182, R188: the last entry of segment `k` stands just before the first entry of segment `k + 1`. -/
theorem Increasing.last_index {s : State} (h : Increasing s) {k : Nat} (hk : k + 1 < s.count) :
    (pointX s k - pointX s 0) + k + (pointX s (k + 1) - pointX s k) = (pointX s (k + 1) - pointX s 0) + (k + 1) - 1 := by
  have hzero := h.pointX_zero_le k (Nat.lt_of_succ_lt hk)
  have hstep := h k hk
  omega

/-- R186: an unsigned 16-bit value is stored as itself. -/
theorem toNat_bitsOf_natCast {y : Nat} (h : y < 65536) : (bitsOf 16 (y : Int)).toNat = y := by
  rw [bitsOf, BitVec.ofInt_natCast, BitVec.toNat_ofNat, Nat.mod_eq_of_lt h]

/-- R187: a segment ends at its second value, or one below it. -/
theorem segmentValue_last_cases (y0 y1 : Nat) {len : Nat} (hpos : 0 < len) (hlen : len < 65536) :
    ∃ y : Nat, segmentValue y0 y1 len len = y ∧ (y = y1 ∨ y + 1 = y1) := by
  rw [segmentValue_last y0 y1 hpos hlen]
  split
  next h => exact ⟨y1 - 1, by omega, by omega⟩
  next => exact ⟨y1, rfl, .inl rfl⟩

/-- Settles O51: the entry at the breakpoint is tick 0 of segment k, and the entry before it the last tick of segment k - 1. -/
theorem envBoundaryIsWrittenTwice : Obligations.EnvBoundaryIsWrittenTwice := by
  intro s t hexec hok k hk0 hk
  obtain ⟨he, ⟨hlo, hhi, hinc⟩, hcap⟩ := checks_of_ok hexec hok
  obtain ⟨t', hexec', _, _, _, hentry⟩ := envExpandWritesTheTable s hlo hhi he hinc hcap
  obtain rfl : t = t' := Host.Outcome.next.inj (hexec.symm.trans hexec')
  obtain ⟨k, rfl⟩ : ∃ m, k = m + 1 := ⟨k - 1, by omega⟩
  have hx : pointX s k < pointX s (k + 1) := hinc k (Nat.lt_of_succ_lt hk)
  have hx1 := pointX_lt s (k + 1)
  have hy1 := pointY_lt s (k + 1)
  obtain ⟨y, hy, hcases⟩ := segmentValue_last_cases (pointY s k) (pointY s (k + 1)) (Nat.sub_pos_of_lt hx) (by omega)
  have hfirst := hentry (k + 1) 0 hk (Nat.zero_le _)
  have hlast := hentry k _ (Nat.lt_of_succ_lt hk) (le_refl _)
  rw [segmentValue_zero, Nat.add_zero] at hfirst
  rw [hinc.last_index (Nat.lt_of_succ_lt hk), hy] at hlast
  rw [hfirst, hlast, toNat_bitsOf_natCast hy1, toNat_bitsOf_natCast (by omega)]
  exact ⟨rfl, hcases⟩

end Sys2Proof.Machine
end

section
/-! PROOFS of the family 60_exceptions.md: the order of the checks (R210 to R220), what a completion writes (R221, R223), illegal
words (R213), and Host accesses beyond buffer memory (R233). -/

namespace Sys2Proof.Machine

/-! ## Every command completes, with OK exactly when its checks pass -/

/-- Settles O22: every command is one completion, and a completion keeps the frame. -/
theorem everyCommandCompletesInOneStep : Obligations.EveryCommandCompletesInOneStep := fun i s =>
  ⟨_, exec_eq i s, complete_phase _ _, complete_done _ _, complete_frame _ _⟩

/-- R212: a completion is OK exactly when every check passes. -/
theorem code_completionOf_eq_ok_iff (i : Instr) (s : State) :
    (completionOf i s).code = .ok ↔ ExtentsGood i s ∧ DataGood i s ∧ outputSize i s ≤ s.capacity := by
  rcases completionOf_spec i s with ⟨c, _, _, hc, hfail, hchecks⟩ | ⟨_, _, _, hok, _, hchecks⟩
  · rw [hfail]
    exact iff_of_false hc hchecks
  · rw [hok]
    exact iff_of_true rfl hchecks

/-- Settles O24: the code of the next state is the completion's. -/
theorem commandSucceedsExactlyWhenChecksPass : Obligations.CommandSucceedsExactlyWhenChecksPass := fun i s =>
  ⟨_, exec_eq i s, by rw [complete_code]; exact code_completionOf_eq_ok_iff i s⟩

/-! ## The checks S2 to S5 -/

/-- Settles O29: S2 comes first. -/
theorem envCountOutsideRangeIsRejected : Obligations.EnvCountOutsideRangeIsRejected := fun s hcount =>
  exec_failure .envExpand s .envCount 0 0 (if_pos hcount)

/-- R212: a command whose check S2 passes ends with the code of the first of S3 to S5 that fails. -/
theorem endsWith_of_extentFailure? {i : Instr} {s : State} {code : Code} (hcount : CountGood i s)
    (h : extentFailure? s (srcExtent i s) = some code) : EndsWith i s code 0 0 :=
  exec_failure i s code 0 0 (by rw [completionOf_eq i s hcount, h])

/-- Settles O25: an extent out of range fails S3 or S4, whichever comes first. -/
theorem extentOutOfRangeGivesAddrRange : Obligations.ExtentOutOfRangeGivesAddrRange := by
  intro i s hcount hrange
  refine endsWith_of_extentFailure? hcount ?_
  rcases extentFailure?_cases s (srcExtent i s) with ⟨h, _⟩ | ⟨_, hsrc, hdst, _⟩ | ⟨_, hsrc, hdst, _⟩
  · exact h
  all_goals simp [hsrc, hdst] at hrange

/-- Settles O26: with both extents in range, S5 is the first check that fails. -/
theorem overlappingExtentsGiveOverlap : Obligations.OverlappingExtentsGiveOverlap := by
  intro i s hcount hsrc hdst hover
  refine endsWith_of_extentFailure? hcount ?_
  rcases extentFailure?_cases s (srcExtent i s) with ⟨_, hrange⟩ | ⟨h, _⟩ | ⟨_, _, _, hclear⟩
  · simp [hsrc, hdst] at hrange
  · exact h
  · rw [hover] at hclear; cases hclear

/-! ## The data check S6 -/

/-- R216: a stream that ends inside cell `k` unpacks to `k` cells and then runs out. -/
theorem unpackStream_truncated {s : State} {n k : Nat} (hk : k < n) (hbegin : cursor (streamByte s) k ≤ s.declaredLen)
    (hend : s.declaredLen < cursor (streamByte s) (k + 1)) :
    unpackStream n (s.mem.readBytes s.srcBase s.declaredLen) = .truncated k := by
  rcases unpackStream_command s n with ⟨hall, _⟩ | ⟨j, _, hbegin', hend', h⟩
  · have hmono := cursor_mono (streamByte s) (k + 1) n hk
    omega
  · suffices j = k by rw [h, this]
    rcases Nat.lt_trichotomy j k with hlt | heq | hgt
    · have hmono := cursor_mono (streamByte s) (j + 1) k hlt
      omega
    · exact heq
    · have hmono := cursor_mono (streamByte s) (k + 1) j hgt
      omega

/-- R217: a stream that goes on after its cells leaves the bytes behind them over. -/
theorem unpackStream_leftover {s : State} {n : Nat} (h : cursor (streamByte s) n < s.declaredLen) :
    ∃ out rest, unpackStream n (s.mem.readBytes s.srcBase s.declaredLen) = .cells out rest ∧
      rest.length = s.declaredLen - cursor (streamByte s) n := by
  rcases unpackStream_command s n with ⟨_, hcells⟩ | ⟨j, hj, _, hbeyond, _⟩
  · exact ⟨_, _, hcells, length_streamFrom _ _ _⟩
  · have hmono := cursor_mono (streamByte s) (j + 1) n hj
    omega

/-- Settles O27: the body finds the stream run out. -/
theorem cellUnpackReportsTruncation : Obligations.CellUnpackReportsTruncation := by
  intro s k he hk hbegin hend
  refine exec_failure _ s _ _ _ ((completionOf_good .cellUnpack s nofun he).trans ?_)
  rw [bodyOf, cellUnpackBody, unpackStream_truncated (n := s.cellCount) hk hbegin hend]
  rfl

/-- Settles O28: the body finds bytes left over, and the bytes consumed are L less those. -/
theorem cellUnpackReportsLeftoverBytes : Obligations.CellUnpackReportsLeftoverBytes := by
  intro s he hleft
  have hleft' : cursor (streamByte s) s.cellCount < s.declaredLen := hleft
  obtain ⟨out, rest, hcells, hrest⟩ := unpackStream_leftover hleft'
  have hne : ¬rest.length = 0 := by omega
  have hpos : s.declaredLen - rest.length = cursor (streamByte s) s.cellCount := by omega
  refine exec_failure _ s _ _ _ ((completionOf_good .cellUnpack s nofun he).trans ?_)
  simp only [bodyOf, cellUnpackBody, hcells, if_neg hne, hpos]
  rfl

/-- R219: the order check on the source finds the smallest `k` with `x_{k+1} ≤ x_k`. -/
theorem firstDisorder_points {s : State} {k : Nat} (hk : k + 1 < s.count) (hpair : pointX s (k + 1) ≤ pointX s k)
    (hbefore : ∀ j, j < k → pointX s j < pointX s (j + 1)) : firstDisorder s.points = some k := by
  simp only [State.points, firstDisorder_eq_some, getElem_breakpointsAt]
  exact ⟨by simpa using hk, hpair, hbefore⟩

/-- Settles O30: the body's order check finds that `k`. -/
theorem envReportsFirstDisorder : Obligations.EnvReportsFirstDisorder := by
  intro s k hlo hhi he hk hpair hbefore
  refine exec_failure _ s _ _ _ ((completionOf_good .envExpand s (fun _ => ⟨hlo, hhi⟩) he).trans ?_)
  rw [bodyOf, envExpandBody, ← State.points, firstDisorder_points hk hpair hbefore]

/-! ## The size check S7 -/

/-- R220: a command whose checks S2 to S6 pass fails S7 when its output is larger than DST_CAP. -/
theorem bodyOf_overflow {i : Instr} {s : State} (hd : DataGood i s) (hcap : s.capacity < outputSize i s) :
    bodyOf i s = overflow (outputSize i s) := by
  cases i with
  | cellUnpack =>
    obtain ⟨rest, hrest, hcells⟩ := unpackStream_of_cursor_eq hd
    simp only [bodyOf, cellUnpackBody, hcells, if_pos hrest]
    exact if_pos hcap
  | cellPack =>
    simp only [bodyOf, cellPackBody, length_packStream]
    exact if_pos hcap
  | envExpand =>
    obtain ⟨hlo, _, hinc⟩ := hd
    have hlen : (envTable s.points).length = tableLength s := length_envTable_source s hinc (Nat.zero_lt_of_lt hlo)
    have hord : firstDisorder s.points = none := (firstDisorder_eq_none _).mpr ((ordered_breakpointsAt s).mpr hinc)
    rw [bodyOf, envExpandBody, ← State.points, hord]
    simp only [hlen]
    exact if_pos hcap
  | dpcmEnc8 | dpcmEnc16 | dpcmDec8 | dpcmDec16 => exact if_pos hcap

/-- Settles O31: the body answers the overflow with the size needed. -/
theorem outputBeyondCapacityOverflows : Obligations.OutputBeyondCapacityOverflows := fun i s he hd hcap =>
  exec_failure i s _ _ _ ((completionOf_good i s (countGood_of_data i s hd) he).trans (bodyOf_overflow hd hcap))

/-! ## All of the output, or nothing -/

/-- R221: a command whose checks all pass ends with OK, its output at DST_ADDR and every other byte kept. -/
theorem exec_writes_output {i : Instr} {s : State} (he : ExtentsGood i s) (hd : DataGood i s)
    (hcap : outputSize i s ≤ s.capacity) :
    ∃ t, exec i s = .next t ∧ t.code = .ok ∧ IsOutput i s (fun p => t.mem.read (s.dstAddr.toNat + p)) ∧
      MemoryKeptOutside s t s.dstAddr.toNat (outputSize i s) := by
  cases i with
  | cellUnpack =>
    obtain ⟨t, hexec, ⟨_, _, hok, _⟩, _, hkept, hcells⟩ := cellUnpackWritesTheDecodedCells s he hd hcap
    exact ⟨t, hexec, hok, fun k hk => by simpa only [Nat.add_assoc] using hcells k hk, hkept⟩
  | cellPack =>
    obtain ⟨t, hexec, ⟨_, _, hok, _⟩, _, hkept, hbytes⟩ := cellPackWritesThePackedCells s he hcap
    exact ⟨t, hexec, hok, fun k hk p hp => by simpa only [Nat.add_assoc] using hbytes k hk p hp, hkept⟩
  | dpcmEnc8 =>
    obtain ⟨t, d, carry, err, hrun, hexec, ⟨_, _, hok, _⟩, _, hkept, hbytes⟩ := dpcmEnc8WritesTheDeltas s he hcap
    exact ⟨t, hexec, hok, ⟨d, carry, err, hrun, hbytes⟩, hkept⟩
  | dpcmEnc16 =>
    obtain ⟨t, d, carry, err, hrun, hexec, ⟨_, _, hok, _⟩, _, hkept, hhalves⟩ := dpcmEnc16WritesTheDeltas s he hcap
    exact ⟨t, hexec, hok, ⟨d, carry, err, hrun, hhalves⟩, hkept⟩
  | dpcmDec8 =>
    obtain ⟨t, q, hrun, hexec, ⟨_, _, hok, _⟩, _, hkept, hhalves⟩ := dpcmDec8WritesTheWidenedSums s he hcap
    exact ⟨t, hexec, hok, ⟨q, hrun, hhalves⟩, hkept⟩
  | dpcmDec16 =>
    obtain ⟨t, q, hrun, hexec, ⟨_, _, hok, _⟩, _, hkept, hhalves⟩ := dpcmDec16WritesTheSums s he hcap
    exact ⟨t, hexec, hok, ⟨q, hrun, hhalves⟩, hkept⟩
  | envExpand =>
    obtain ⟨hlo, hhi, hinc⟩ := hd
    obtain ⟨t, hexec, ⟨_, _, hok, _⟩, _, hkept, hhalves⟩ := envExpandWritesTheTable s hlo hhi he hinc hcap
    exact ⟨t, hexec, hok, hhalves, hkept⟩

/-- Settles O23: a command passes all its checks, or fails one and writes nothing. -/
theorem commandsWriteAllOrNothing : Obligations.CommandsWriteAllOrNothing := by
  intro i s
  rcases completionOf_spec i s with ⟨c, _, _, hc, hfail, _⟩ | ⟨_, _, _, _, _, he, hd, hcap⟩
  · refine ⟨_, exec_eq i s, ?_, ?_⟩
    · intro _; rw [hfail]; rfl
    · intro hok; rw [hfail] at hok; exact absurd hok hc
  · obtain ⟨t, hexec, hok, hout, hkept⟩ := exec_writes_output he hd hcap
    exact ⟨t, hexec, fun hne => absurd hok hne, fun _ => ⟨hcap, hout, hkept⟩⟩

/-- Settles O56: an output lies in the destination extent, which S5 keeps clear of the source. -/
theorem noCommandWritesItsSource : Obligations.NoCommandWritesItsSource := by
  intro i s t hexec a ha
  rw [eq_complete_of_exec hexec, complete_mem]
  rcases completionOf_spec i s with ⟨_, _, _, _, hfail, _⟩ | ⟨_, _, _, hok, hlen, ⟨_, _, hclear⟩, _, hcap⟩
  · rw [hfail]; rfl
  · rw [hok, Completion.output_success]
    refine Memory.read_writeBytes_outside _ _ _ _ fun ⟨hlo, hhi⟩ => ?_
    rw [hlen] at hhi
    have hdst : s.dstExtent.has a = true := (Extent.has_iff _ _).mpr ⟨hlo, hhi.trans_le (Nat.add_le_add_left hcap _)⟩
    rw [Extent.not_has_both _ _ hclear a ha] at hdst
    cases hdst

/-! ## Illegal words -/

/-- R72: a word with a RSVD that is not 0, or with a reserved OP, is illegal. -/
theorem exists_decode_error_of_reserved {w : Word}
    (h : w.extractLsb' 4 28 ≠ 0 ∨ w.extractLsb' 0 4 = 0 ∨ 8 ≤ (w.extractLsb' 0 4).toNat) : ∃ e, decode w = .error e := by
  obtain ⟨_, _, _, hillegal⟩ := everyWordIsOneCommandOrIllegal
  rw [hillegal, CommandWord.legal, Bool.and_eq_false_iff]
  rcases h with hrsvd | hop | hop
  · exact .inl (beq_eq_false_iff_ne.mpr hrsvd)
  · exact .inr (decide_eq_false fun ⟨hlo, _⟩ => by simp [CommandWord.op, hop] at hlo)
  · exact .inr (decide_eq_false fun ⟨_, hhi⟩ => Nat.not_le.mpr hop hhi)

/-- Settles O5: the write starts a command, and the Unit finds no meaning for its word. -/
theorem illegalWordCompletesWithBadOp : Obligations.IllegalWordCompletesWithBadOp := by
  intro s w rest hidle hagenda hreserved
  obtain ⟨e, he⟩ := exists_decode_error_of_reserved hreserved
  have hwrite : step s = .next ((s.withAgenda (.unit :: rest)).start w) := by
    refine (step_host hagenda).trans ((hostAccess_writeReg .cmd w _).trans ?_)
    exact congrArg Host.Outcome.next (configWrite_idle _ _ hidle)
  have hunit : step ((s.withAgenda (.unit :: rest)).start w) =
      .next (completeBadOp (((s.withAgenda (.unit :: rest)).start w).withAgenda rest)) :=
    (step_unit rfl).trans (unitStep_illegal _ e rfl he)
  exact ⟨_, _, hwrite, hunit, complete_failure _ _ _ _, rfl, rfl, rfl, rfl, rfl, rfl, rfl, rfl, rfl, rfl, rfl⟩

/-! ## Host accesses beyond buffer memory -/

/-- R54: an extent that is not empty and ends above MEM_SIZE is out of range. -/
theorem Extent.inRange_eq_false {size : Nat} {e : Extent} (hlen : e.len ≠ 0) (hend : size < e.addr + e.len) :
    e.inRange size = false := by
  rw [Bool.eq_false_iff, Ne, Extent.inRange_iff]
  omega

/-- Settles O17: both accesses check their extent before anything else. -/
theorem hostAccessBeyondMemoryIsRefused : Obligations.HostAccessBeyondMemoryIsRefused := by
  intro s addr
  constructor
  · intro data hne hend
    have hr : Extent.inRange s.memSize.val ⟨zext addr, data.length⟩ = false :=
      Extent.inRange_eq_false (mt List.length_eq_zero_iff.mp hne) hend
    simp only [hostAccess, hr, Bool.not_false, if_true]
  · intro count hne hend
    have hr : Extent.inRange s.memSize.val ⟨zext addr, count⟩ = false := Extent.inRange_eq_false hne hend
    simp only [hostAccess, hr, Bool.not_false, if_true]

end Sys2Proof.Machine
end

section
/-! PROOFS of the family 70_reset_and_hazards.md: what a completion depends on (R243), the hazards between Host and Unit (R244,
R245), reset (R240, R241), and the steps that go on (R244). -/

namespace Sys2Proof.Machine

/-! ## What a completion depends on -/

/-- The two memories read the same on an extent. -/
def Memory.AgreeOn (e : Extent) (m m' : Memory) : Prop := ∀ a, e.has a = true → m'.read a = m.read a

section
variable {m m' : Memory} {base n a : Nat} {e : Extent}

theorem Memory.AgreeOn.read_eq (h : Memory.AgreeOn e m m') (hlo : e.addr ≤ a) (hhi : a < e.addr + e.len) :
    m'.read a = m.read a := h a ((Extent.has_iff _ _).mpr ⟨hlo, hhi⟩)

theorem Memory.AgreeOn.read16_eq (h : Memory.AgreeOn e m m') (hlo : e.addr ≤ a) (hhi : a + 1 < e.addr + e.len) :
    m'.read16 a = m.read16 a := by
  rw [Memory.read16, Memory.read16, h.read_eq hlo (by omega), h.read_eq (by omega) hhi]

/-! Elements read from an extent (30_encoding.md R75 to R78) are the same in two memories that agree on it. -/

theorem Memory.AgreeOn.readBytes_eq (h : Memory.AgreeOn ⟨base, n⟩ m m') : m'.readBytes base n = m.readBytes base n :=
  Memory.readBytes_congr m m' base n fun _ hi => h.read_eq (Nat.le_add_right _ _) (Nat.add_lt_add_left hi base)

theorem Memory.AgreeOn.signed8s_eq (h : Memory.AgreeOn ⟨base, n⟩ m m') : signed8s m' base n = signed8s m base n := by
  refine List.map_congr_left fun i hi => ?_
  have hlt := List.mem_range.mp hi
  rw [h.read_eq (Nat.le_add_right _ _) (Nat.add_lt_add_left hlt base)]

theorem Memory.AgreeOn.signed16s_eq (h : Memory.AgreeOn ⟨base, 2 * n⟩ m m') : signed16s m' base n = signed16s m base n := by
  refine List.map_congr_left fun i hi => ?_
  have hlt := List.mem_range.mp hi
  rw [h.read16_eq (Nat.le_add_right _ _) (show base + 2 * i + 1 < base + 2 * n by omega)]

theorem Memory.AgreeOn.cellsAt_eq (h : Memory.AgreeOn ⟨base, 6 * n⟩ m m') : cellsAt m' base n = cellsAt m base n := by
  refine List.map_congr_left fun i hi => ?_
  have hlt := List.mem_range.mp hi
  have hbyte : ∀ f, f < 6 → m'.read (base + 6 * i + f) = m.read (base + 6 * i + f) := fun f hf =>
    h.read_eq (show base ≤ base + 6 * i + f by omega) (show base + 6 * i + f < base + 6 * n by omega)
  simp only [cellAt, hbyte, show m'.read (base + 6 * i) = m.read (base + 6 * i) from hbyte 0 (by decide), Nat.reduceLT]

theorem Memory.AgreeOn.breakpointsAt_eq (h : Memory.AgreeOn ⟨base, 4 * n⟩ m m') :
    breakpointsAt m' base n = breakpointsAt m base n := by
  refine List.map_congr_left fun i hi => ?_
  have hlt := List.mem_range.mp hi
  rw [breakpointAt, breakpointAt, h.read16_eq (Nat.le_add_right _ _) (show base + 4 * i + 1 < base + 4 * n by omega),
    h.read16_eq (show base ≤ base + 4 * i + 2 by omega) (show base + 4 * i + 2 + 1 < base + 4 * n by omega)]

end

section
variable {i : Instr} {s s' : State}

/-! States with the same operand registers (30_encoding.md R73) have the same operands. -/

theorem OperandsKept.srcBase_eq (h : OperandsKept s s') : s'.srcBase = s.srcBase := by
  obtain ⟨_, hsrc, _⟩ := h
  exact congrArg zext hsrc

theorem OperandsKept.declaredLen_eq (h : OperandsKept s s') : s'.declaredLen = s.declaredLen := by
  obtain ⟨_, _, hlen, _⟩ := h
  exact congrArg zext hlen

theorem OperandsKept.dstAddr_eq (h : OperandsKept s s') : s'.dstAddr = s.dstAddr := by
  obtain ⟨_, _, _, hdst, _⟩ := h
  exact hdst

theorem OperandsKept.capacity_eq (h : OperandsKept s s') : s'.capacity = s.capacity := by
  obtain ⟨_, _, _, _, hcap, _⟩ := h
  exact congrArg zext hcap

theorem OperandsKept.count_eq (h : OperandsKept s s') : s'.count = s.count := by
  obtain ⟨_, _, _, _, _, harg0, _⟩ := h
  exact congrArg zext harg0

theorem OperandsKept.cellCount_eq (h : OperandsKept s s') : s'.cellCount = s.cellCount := by
  obtain ⟨_, _, _, _, _, harg0, harg1⟩ := h
  rw [State.cellCount, State.cellCount, harg0, harg1]

theorem OperandsKept.dstExtent_eq (h : OperandsKept s s') : s'.dstExtent = s.dstExtent := by
  rw [State.dstExtent, State.dstExtent, State.dstBase, State.dstBase, h.dstAddr_eq, h.capacity_eq]

theorem OperandsKept.srcExtent_eq (h : OperandsKept s s') : srcExtent i s' = srcExtent i s := by
  cases i <;> simp only [srcExtent, h.srcBase_eq, h.declaredLen_eq, h.count_eq, h.cellCount_eq]

/-- R243: after the checks S2 to S5 a command reads the operand registers and its source, element by element. -/
theorem SameInputs.bodyOf_eq (h : SameInputs i s s') : bodyOf i s' = bodyOf i s := by
  obtain ⟨hops, _, hsource⟩ := h
  have hbase := hops.srcBase_eq
  have hcap := hops.capacity_eq
  have hcount := hops.count_eq
  have hcells := hops.cellCount_eq
  cases i with
  | cellUnpack =>
    have hbytes := Memory.AgreeOn.readBytes_eq (n := s.declaredLen) hsource
    simp only [bodyOf, cellUnpackBody, hops.declaredLen_eq, hbase, hcap, hcells, hbytes]
  | cellPack =>
    have hrecords := Memory.AgreeOn.cellsAt_eq (n := s.cellCount) hsource
    simp only [bodyOf, cellPackBody, hbase, hcap, hcells, hrecords]
  | dpcmEnc8 =>
    have hsamples := Memory.AgreeOn.signed16s_eq (n := s.count) hsource
    simp only [bodyOf, dpcmEnc8Body, hbase, hcap, hcount, hsamples]
  | dpcmEnc16 =>
    have hsamples := Memory.AgreeOn.signed16s_eq (n := s.count) hsource
    simp only [bodyOf, dpcmEnc16Body, hbase, hcap, hcount, hsamples]
  | dpcmDec8 =>
    have hdeltas := Memory.AgreeOn.signed8s_eq (n := s.count) hsource
    simp only [bodyOf, dpcmDec8Body, hbase, hcap, hcount, hdeltas]
  | dpcmDec16 =>
    have hdeltas := Memory.AgreeOn.signed16s_eq (n := s.count) hsource
    simp only [bodyOf, dpcmDec16Body, hbase, hcap, hcount, hdeltas]
  | envExpand =>
    have hpoints := Memory.AgreeOn.breakpointsAt_eq (n := s.count) hsource
    simp only [bodyOf, envExpandBody, hbase, hcap, hcount, hpoints]

/-- R243: the checks S3 to S5 read the operand registers and MEM_SIZE. -/
theorem SameInputs.extentFailure?_eq (h : SameInputs i s s') :
    extentFailure? s' (srcExtent i s') = extentFailure? s (srcExtent i s) := by
  obtain ⟨hops, hsize, _⟩ := h
  rw [extentFailure?, extentFailure?, hops.srcExtent_eq, hops.dstExtent_eq, hsize]

/-- A command whose check S2 fails. -/
theorem completionOf_of_not_countGood (h : ¬CountGood i s) : completionOf i s = .failure .envCount 0 0 := by
  obtain ⟨rfl, hcount⟩ := Classical.not_imp.mp h
  refine if_pos ?_
  rw [State.count, zext]
  omega

/-- R243: how a command completes depends only on the latched registers, MEM_SIZE and the bytes of its source extent. -/
theorem SameInputs.completionOf_eq (h : SameInputs i s s') : completionOf i s' = completionOf i s := by
  have hcount : CountGood i s' ↔ CountGood i s := by
    have harg0 : s'.arg0.toNat = s.arg0.toNat := h.1.count_eq
    rw [CountGood, CountGood, harg0]
  by_cases hc : CountGood i s
  · rw [Machine.completionOf_eq i s hc, Machine.completionOf_eq i s' (hcount.mpr hc), h.extentFailure?_eq, h.bodyOf_eq]
  · rw [completionOf_of_not_countGood hc, completionOf_of_not_countGood (mt hcount.mp hc)]

/-- R11: CODE, RES0 and RES1 after a completion are the completion's. -/
theorem complete_results_eq (s s' : State) (c : Completion) : (complete s' c).code = (complete s c).code ∧
    (complete s' c).res0 = (complete s c).res0 ∧ (complete s' c).res1 = (complete s c).res1 := by
  cases c <;> exact ⟨rfl, rfl, rfl⟩

/-- The bytes of a completion's output read the same whatever was there before. -/
theorem complete_read_output (c : Completion) (hdst : s'.dstAddr = s.dstAddr) {a : Nat} (hlo : s.dstBase ≤ a)
    (hhi : a < s.dstBase + c.output.length) : (complete s' c).mem.read a = (complete s c).mem.read a := by
  have hin : s.dstAddr.toNat ≤ a ∧ a - s.dstAddr.toNat < c.output.length := ⟨hlo, Nat.sub_lt_left_of_lt_add hlo hhi⟩
  rw [complete_mem, complete_mem, hdst, Memory.read_writeBytes, Memory.read_writeBytes, dif_pos hin, dif_pos hin]

/-- A byte that two states agree on they agree on after the same completion, written or not. -/
theorem complete_read_congr (c : Completion) (hdst : s'.dstAddr = s.dstAddr) {a : Nat} (h : s'.mem.read a = s.mem.read a) :
    (complete s' c).mem.read a = (complete s c).mem.read a := by
  rw [complete_mem, complete_mem, hdst, Memory.read_writeBytes, Memory.read_writeBytes, h]

/-- R221: a completion with OK writes an output of the size the table of R212 gives. -/
theorem length_output_of_ok (h : (completionOf i s).code = .ok) : (completionOf i s).output.length = outputSize i s := by
  rcases completionOf_spec i s with ⟨c, _, _, hc, hfail, _⟩ | ⟨_, _, out, hok, hlen, _⟩
  · rw [hfail] at h; exact absurd h hc
  · rw [hok]; exact hlen

end

/-- Settles O57: both states complete with the same completion. -/
theorem completionDependsOnlyOnItsInputs : Obligations.CompletionDependsOnlyOnItsInputs := by
  intro i s s' t t' hsame hexec hexec'
  have hdst := hsame.1.dstAddr_eq
  rw [eq_complete_of_exec hexec, eq_complete_of_exec hexec', hsame.completionOf_eq]
  obtain ⟨hcode, hres0, hres1⟩ := complete_results_eq s s' (completionOf i s)
  refine ⟨⟨hcode, hres0, hres1, fun hok a hlo hhi => ?_⟩, fun a => complete_read_congr _ hdst⟩
  rw [complete_code] at hok
  exact complete_read_output _ hdst hlo (by rwa [length_output_of_ok hok])

/-! ## Hazards between Host and Unit -/

section
variable {i : Instr} {s : State}

theorem runningSource_eq (hd : decode s.cmd = .ok i) : s.runningSource = srcExtent i s := by
  simp only [State.runningSource, fetch, hd]

/-- R244, byte by byte: while BUSY, a write that reaches a byte of the running command's extents. -/
theorem writeHazard_iff (hd : decode s.cmd = .ok i) (e : Extent) : s.writeHazard e = true ↔
    s.phase = .busy ∧ ∃ a, e.has a = true ∧ ((srcExtent i s).has a = true ∨ s.dstExtent.has a = true) := by
  rw [State.writeHazard, runningSource_eq hd, Bool.and_eq_true, Bool.or_eq_true, s.busy_iff,
    Extent.overlaps_iff_exists_has, Extent.overlaps_iff_exists_has, ← exists_or]
  simp only [and_or_left]

/-- 10_state.md R20: no register is held in buffer memory, so no register write reaches it. -/
@[simp] theorem writeOffset_mem (s : State) (o : BitVec 8) (v : Word) : (s.writeOffset o v).mem = s.mem := by
  rcases writeOffset_cases s o v with e | e | ⟨_, e⟩ | ⟨_, _, e⟩ | ⟨_, _, _, _, _, _, _, e⟩ <;> rw [e] <;> rfl

/-- R244: a Host access that goes on while a command runs writes no byte of its source. -/
theorem hostAccess_keeps_source {a : HostAction} {t : State} (hb : s.phase = .busy) (hd : decode s.cmd = .ok i)
    (h : hostAccess a s = .next t) : ∀ b, (srcExtent i s).has b = true → t.mem.read b = s.mem.read b := by
  intro b hsrc
  rcases hostAccess_cases a s t h with
    ⟨o, _, v, _, _, _, rfl⟩ | ⟨_, _, _, _, rfl⟩ | ⟨addr, data, _, _, hclear, rfl⟩ | ⟨_, _, _, _, rfl⟩
  · rw [writeOffset_mem]
  · rfl
  · refine Memory.read_writeBytes_outside _ _ _ _ fun hin => ?_
    have hwritten : Extent.has ⟨zext addr, data.length⟩ b = true := (Extent.has_iff _ _).mpr hin
    rw [(writeHazard_iff hd _).mpr ⟨hb, b, hwritten, .inl hsrc⟩] at hclear
    cases hclear
  · rfl

/-- R243, R244: a Host access that goes on while a command runs keeps everything the command depends on. -/
theorem sameInputs_of_hostAccess {a : HostAction} {t : State} (hb : s.phase = .busy) (hd : decode s.cmd = .ok i)
    (h : hostAccess a s = .next t) : SameInputs i s t := by
  obtain ⟨_, hops, _, _, _, hsize⟩ := hostAccess_busy a s t hb h
  exact ⟨hops, hsize, hostAccess_keeps_source hb hd h⟩

end

/-- Settles O58: the access keeps the command's inputs, so O57 applies. -/
theorem hostStepsDoNotChangeTheCompletion : Obligations.HostStepsDoNotChangeTheCompletion := by
  intro i a s s' t hb hd hacc hexec
  have hsame := sameInputs_of_hostAccess hb hd hacc
  obtain ⟨hb', ⟨hcmd, _⟩, _⟩ := hostAccess_busy a s s' hb hacc
  exact ⟨_, hb', hcmd ▸ hd, exec_eq i s', (completionDependsOnlyOnItsInputs i s s' t _ hsame hexec (exec_eq i s')).1⟩

/-- R244: a Host write in range that a hazard forbids marks the run faulted. -/
theorem hostAccess_memWrite_hazard (s : State) (addr : Word) (data : List Byte)
    (hr : Extent.inRange s.memSize.val ⟨addr.toNat, data.length⟩ = true)
    (hh : s.writeHazard ⟨addr.toNat, data.length⟩ = true) :
    hostAccess (.memWrite addr data) s = .fault .hostWroteRunningExtent := by
  simp [hostAccess, zext, hr, hh]

/-- Settles O16, by whether the write is a hazard. -/
theorem hostWriteToRunningExtentFaults : Obligations.HostWriteToRunningExtentFaults := by
  intro s i addr data hin hd
  have hr : Extent.inRange s.memSize.val ⟨addr.toNat, data.length⟩ = true :=
    (Extent.inRange_iff _ _).mpr (hin.imp_left List.length_eq_zero_iff.mpr)
  have hiff := writeHazard_iff hd ⟨addr.toNat, data.length⟩
  simp only [Extent.has_iff ⟨addr.toNat, data.length⟩, and_assoc] at hiff
  rw [← hiff]
  cases hh : s.writeHazard ⟨addr.toNat, data.length⟩ with
  | true => simp [hostAccess_memWrite_hazard s addr data hr hh]
  | false => simp [hostAccess_memWrite s addr data hr hh]

/-! ## Host reads of buffer memory -/

/-- R58: a Host read in range answers its bytes, drawing one free value a byte while BUSY. -/
theorem hostAccess_memRead (s : State) (addr : Word) (count : Nat)
    (hr : Extent.inRange s.memSize.val ⟨addr.toNat, count⟩ = true) : hostAccess (.memRead addr count) s =
      .next ((s.deliver (s.hostBytes addr.toNat count)).drawn (if s.busy then count else 0)) := by
  simp [hostAccess, zext, hr]

@[simp] theorem readReg_deliver (s : State) (bs : List Byte) (r : Reg) : (s.deliver bs).readReg r = s.readReg r := by
  cases r <;> rfl

@[simp] theorem readReg_drawn (s : State) (n : Nat) (r : Reg) : (s.drawn n).readReg r = s.readReg r := by
  cases r <;> rfl

@[simp] theorem length_hostBytes (s : State) (a n : Nat) : (s.hostBytes a n).length = n := by
  simp [State.hostBytes]

theorem getElem_hostBytes (s : State) (a n i : Nat) (h : i < (s.hostBytes a n).length) :
    (s.hostBytes a n)[i] = s.hostByte (a + i) (s.draws + i) := by
  simp [State.hostBytes]

/-- R245: a byte that is not in the destination of a running command is read from buffer memory. -/
theorem hostByte_of_memory (s : State) (a draw : Nat) (h : s.phase = .idle ∨ s.dstExtent.has a = false) :
    s.hostByte a draw = s.mem.read a := by
  refine if_neg ?_
  rcases h with hi | hout
  · simp [s.busy_of_idle hi]
  · simp [hout]

/-- R245: a byte in the destination of a running command is a draw. -/
theorem hostByte_of_draw (s : State) (a draw : Nat) (hb : s.phase = .busy) (h : s.dstExtent.has a = true) :
    s.hostByte a draw = Config.freeByte draw := if_pos (by simp [s.busy_iff.mpr hb, h])

/-- Settles O18, byte by byte. -/
theorem hostReadReturnsBytesOrDraws : Obligations.HostReadReturnsBytesOrDraws := by
  intro s addr count hin
  have hr : Extent.inRange s.memSize.val ⟨addr.toNat, count⟩ = true := (Extent.inRange_iff _ _).mpr hin
  refine ⟨_, hostAccess_memRead s addr count hr, rfl, fun r => by simp, rfl, by simp, fun hi => by simp [s.busy_of_idle hi],
    fun hb => by simp [s.busy_iff.mpr hb], fun i h => ⟨fun hmem => ?_, fun ⟨hb, hdst⟩ => ?_⟩⟩
  · exact (getElem_hostBytes s _ _ i h).trans (hostByte_of_memory s _ _ hmem)
  · exact (getElem_hostBytes s _ _ i h).trans (hostByte_of_draw s _ _ hb hdst)

/-! ## Reset -/

/-- LOG 10: the bytes that a reset while BUSY draws are those of the destination extent below MEM_SIZE. -/
theorem dstBytes_iff (s : State) (a : Nat) :
    s.dstBase ≤ a ∧ a < s.dstBase + s.dstBytes ↔ s.dstExtent.has a = true ∧ a < s.memSize.val := by
  have hdst : s.dstExtent.has a = true ↔ s.dstBase ≤ a ∧ a < s.dstBase + s.capacity := Extent.has_iff _ _
  rw [hdst, State.dstBytes]
  omega

/-- R241: what a reset while BUSY leaves in buffer memory. -/
theorem applyReset_read_busy (s : State) (hb : s.phase = .busy) (a : Nat) : (applyReset s).mem.read a =
    if s.dstExtent.has a = true ∧ a < s.memSize.val then Config.freeByte (s.draws + (a - s.dstBase)) else s.mem.read a := by
  have hin := dstBytes_iff s a
  rw [applyReset_mem_busy s hb, Memory.read_writeBytes]
  split
  · next h =>
    rw [List.length_map, List.length_range] at h
    rw [if_pos (hin.mp (by omega))]
    simp
  · next h =>
    rw [List.length_map, List.length_range] at h
    rw [if_neg (mt hin.mpr (by omega))]

/-- Settles O20, by the phase the reset finds. -/
theorem resetClearsRegistersAndKeepsMemory : Obligations.ResetClearsRegistersAndKeepsMemory := by
  intro s rest hagenda
  refine ⟨_, step_reset hagenda, applyReset_phase _, applyReset_readReg _, applyReset_memSize _, applyReset_agenda _,
    fun hi a => ?_, fun hb a => ?_⟩
  · rw [applyReset_mem_idle (s.withAgenda rest) hi, State.withAgenda_mem]
  · have hread := applyReset_read_busy (s.withAgenda rest) hb a
    exact ⟨fun hout => hread.trans (if_neg hout), fun hin => hread.trans (if_pos hin)⟩

/-! ## The Unit's turn, and the steps that go on -/

/-- R243: the Unit's turn while a command runs is that command. -/
theorem unitStep_command (s : State) (i : Instr) (hb : s.phase = .busy) (hd : decode s.cmd = .ok i) :
    unitStep s = exec i s := by
  simp only [unitStep, hb, fetch, hd]

/-- Settles O4, by the head of the pending inputs. -/
theorem stepRunsTheCommandInCmd : Obligations.StepRunsTheCommandInCmd := fun s i rest hb hd =>
  ⟨fun h => (step_nothing_pending h).trans (unitStep_command s i hb hd),
    fun h => (step_unit h).trans (unitStep_command (s.withAgenda rest) i hb hd),
    fun h => (step_wait_busy hb h).trans (unitStep_command s i hb hd)⟩

/-- R243: the Unit never stops the machine. -/
theorem unitStep_goes_on (s : State) : ∃ t, unitStep s = .next t := by
  cases hp : s.phase with
  | idle => exact ⟨s, unitStep_idle s hp⟩
  | busy =>
    obtain ⟨c, hc⟩ := unitStep_busy s hp
    exact ⟨_, hc⟩

/-! The Host accesses that go on (R35, R233, R244; LOG 14). -/

theorem hostAccess_regRead_goes_on_iff (s : State) (o : BitVec 8) (width : Nat) :
    windowAccessLegal o width = true ↔ ∃ t, hostAccess (.regRead o width) s = .next t :=
  iff_exists_next_of_refused (fun h => ⟨_, if_pos h⟩) (hostAccess_regRead_illegal s o width)

theorem hostAccess_regWrite_goes_on_iff (s : State) (o : BitVec 8) (data : List Byte) :
    windowAccessLegal o data.length = true ↔ ∃ t, hostAccess (.regWrite o data) s = .next t :=
  iff_exists_next_of_refused (hostAccess_regWrite_legal s o data) (hostAccess_regWrite_illegal s o data)

theorem hostAccess_memRead_goes_on_iff (s : State) (addr : Word) (count : Nat) :
    Extent.inRange s.memSize.val ⟨addr.toNat, count⟩ = true ↔ ∃ t, hostAccess (.memRead addr count) s = .next t :=
  iff_exists_next_of_refused (r := .bufferAddress) (fun h => ⟨_, hostAccess_memRead s addr count h⟩)
    fun h => by simp [hostAccess, zext, h]

theorem hostAccess_memWrite_goes_on_iff (s : State) (addr : Word) (data : List Byte) :
    Extent.inRange s.memSize.val ⟨addr.toNat, data.length⟩ = true ∧ s.writeHazard ⟨addr.toNat, data.length⟩ = false ↔
      ∃ t, hostAccess (.memWrite addr data) s = .next t := by
  constructor
  · rintro ⟨hr, hh⟩
    exact ⟨_, hostAccess_memWrite s addr data hr hh⟩
  · rintro ⟨t, ht⟩
    rcases hostAccess_cases _ s t ht with ⟨_, _, _, ha, _⟩ | ⟨_, _, ha, _⟩ | ⟨_, _, ha, hr, hh, _⟩ | ⟨_, _, ha, _⟩
    case inr.inr.inl => cases ha; exact ⟨hr, hh⟩
    all_goals cases ha

/-- Settles O59, by the agent whose turn it is and the kind of access. -/
theorem machineStopsOnlyOnHostBreach : Obligations.MachineStopsOnlyOnHostBreach := by
  intro s
  rw [HostKeepsDuty, SafeStep, step]
  rcases nextMove s with ⟨mover, t⟩
  cases mover with
  | unit => exact iff_of_true trivial (unitStep_goes_on t)
  | reset => exact iff_of_true trivial ⟨_, rfl⟩
  | host a =>
    cases a with
    | regWrite o data => exact hostAccess_regWrite_goes_on_iff t o data
    | regRead o width => exact hostAccess_regRead_goes_on_iff t o width
    | memWrite addr data => exact hostAccess_memWrite_goes_on_iff t addr data
    | memRead addr count => exact hostAccess_memRead_goes_on_iff t addr count

end Sys2Proof.Machine
end
